-- ==== Sys2Proof/Word.lean ====
section
/-! DEFINITION. The word types of the machine: a byte, a word of 16 bits and a doubleword of 32 bits (R6, R50). -/

namespace Sys2Proof

/-- A byte: bits 0 to 7 (R50). -/
abbrev Byte := BitVec 8

/-- A word: 16 bits (R6). -/
abbrev Word := BitVec 16

/-- A doubleword: 32 bits (R6). -/
abbrev DWord := BitVec 32

end Sys2Proof
end

