-- ==== Sys2Proof/Config.lean ====
section
/-! DEFINITION. What a run fixes once: the launch parameters of 00_scope.md R5, as plain data, and the types they
are made of. Nothing here is computed; the functions that read these types stand in Sys2Proof/Machine/. -/

namespace Sys2Proof

/-- The two values of every size attribute, 16 and 32 (R10, R35). -/
inductive Size where
  | s16
  | s32
deriving DecidableEq, Repr

/-- The widths of a memory or I/O access: BYTE, WORD, DWORD (R6, R54). -/
inductive AccessWidth where
  | byte
  | word
  | dword
deriving DecidableEq, Repr

/-- The six segment registers (R30). -/
inductive SegReg where
  | cs
  | ss
  | ds
  | es
  | fs
  | gs
deriving DecidableEq, Repr

/-- The three operating modes (R32, R221). -/
inductive Mode where
  | realAddress
  | protectedMode
  | virtual8086
deriving DecidableEq, Repr

/-- The type of the current task state segment (R31). -/
inductive TSSType where
  | tss286
  | tss386
deriving DecidableEq, Repr

/-- The nine exceptions of Table 17-6 (R201). -/
inductive ExceptionName where
  | ud
  | nm
  | df
  | ts
  | np
  | ss
  | gp
  | pf
  | mf
deriving DecidableEq, Repr

/-- What an access is for (R5: `Translate` takes the access kind; R56: "fetch"). -/
inductive AccessKind where
  | fetch
  | load
  | store
deriving DecidableEq, Repr

/-- Where an offset counts from: a segment register (R52), or no segment register, a system read of the TSS (R186). -/
inductive AddressSource where
  | segment (r : SegReg)
  | system
deriving DecidableEq, Repr

/-- One question to `Translate` (R5): the access (where its offset counts from, the offset, its width, its kind) and which of its
bytes is asked for (`byte` counts from 0 at the offset itself, R50). -/
structure TranslateQuery where
  source : AddressSource
  offset : Nat
  width : AccessWidth
  byte : Nat
  kind : AccessKind
deriving DecidableEq, Repr

/-- What `Translate` answers: a byte location, or a fault of Table 17-6 with its optional error code (R52, R65, R212). -/
inductive TranslateAnswer where
  | location (l : Nat)
  | fault (name : ExceptionName) (code : Option Nat)
deriving DecidableEq, Repr

/-- One row of the table that holds `Translate` as plain data: `none` in a selector means any. The offsets `lo` to `hi`
(both included) of an access are matched. A `location b` answer places offset `lo` at `b` and the offsets after it behind it. -/
structure TranslateRow where
  source : Option AddressSource
  lo : Nat
  hi : Nat
  width : Option AccessWidth
  byte : Option Nat
  kind : Option AccessKind
  answer : TranslateAnswer
deriving DecidableEq, Repr

/-- What the REG field of an instruction form is for (R79): a register of a width, a digit of the opcode, or neither. -/
inductive RegFieldUse where
  | register (isByte : Bool)
  | digit
  | unused
deriving DecidableEq, Repr

/-- What follows an opcode (R5, D25): whether a ModR/M byte does, what its REG field is for, how many immediate bytes for
operand size 16 and for 32, and whether the operand is a byte (else it has the operand size). -/
structure Shape where
  hasModRM : Bool
  regField : RegFieldUse
  immBytes16 : Nat
  immBytes32 : Nat
  byteOperand : Bool
deriving DecidableEq, Repr

/-- What `OpcodeShape` says of a first opcode byte: its shape, or that a second opcode byte follows, and the shapes by that
second byte (R75). -/
inductive ShapeEntry where
  | oneByte (shape : Shape)
  | twoByte (rows : List (Byte × Shape))
deriving DecidableEq, Repr

/-- The launch parameters (R5, R231): fixed for a run. `opcodeShape` holds the rows beside F5, which R93 fixes. `translate` is
the function `Translate` as a table. `endIp` is the offset at which the run ends (R239); `none` where the launch names no end. -/
structure Launch where
  defaultOperandSize : Size
  defaultAddressSize : Size
  stackAddrSize : Size
  opcodeShape : List (Byte × ShapeEntry)
  maxInstrLength : Nat
  translate : List TranslateRow
  ioMapPtrOffset : Nat
  mode : Mode
  tssType : TSSType
  tss : Nat
  endIp : Option DWord
deriving DecidableEq, Repr

/-- One entry of the "Clocks" column (R233, R234): one count, or the count for a register operand and the one for a memory
operand. Recorded only: no rule of the model reads a clock count (R238). -/
inductive ClockEntry where
  | plain (n : Nat)
  | registerOrMemory (register memory : Nat)
deriving DecidableEq, Repr

/-- The old task of Table 17-5 (R236). -/
inductive OldTask where
  | tss386vm0
  | tss386vm1
  | tss286
deriving DecidableEq, Repr

/-- The new task of Table 17-5 as the extraction labels its two columns (R236; the table is damaged, 90_conflicts.md C12). -/
inductive NewTask where
  | tss386vm0
  | tss286
deriving DecidableEq, Repr

end Sys2Proof
end

