-- ==== Sys2Proof/Syntax.lean ====
section
/-! DEFINITION. The syntax: register names, prefix bytes and prefix sets, the instructions (one constructor per row of
spec/opcode_table.json) and the fields of a whole instruction (R70). -/

namespace Sys2Proof

/-- The 32-bit register names (R20). -/
inductive Reg32 where
  | eax
  | ecx
  | edx
  | ebx
  | esp
  | ebp
  | esi
  | edi
deriving DecidableEq, Repr

/-- The 16-bit register names (R21). -/
inductive Reg16 where
  | ax
  | cx
  | dx
  | bx
  | sp
  | bp
  | si
  | di
deriving DecidableEq, Repr

/-- The 8-bit register names (R22). -/
inductive Reg8 where
  | al
  | cl
  | dl
  | bl
  | ah
  | ch
  | dh
  | bh
deriving DecidableEq, Repr

/-- The two values of the repeat class of prefix bytes, F2 and F3 (R71, R74). -/
inductive RepeatByte where
  | f2
  | f3
deriving DecidableEq, Repr

/-- The eleven prefix byte values (R71, R72, R73), by what they are. -/
inductive PrefixByte where
  | repeating (b : RepeatByte)
  | lock
  | segment (r : SegReg)
  | operandSize
  | addressSize
deriving DecidableEq, Repr

/-- The five classes of prefix bytes (R74). -/
inductive PrefixClass where
  | repeating
  | lock
  | segment
  | operandSize
  | addressSize
deriving DecidableEq, Repr

/-- The set P of prefix bytes of an instruction (R97). A set holds at most one byte of each class (R74), so it is one entry
for each class. -/
structure PrefixSet where
  repeating : Option RepeatByte
  lock : Bool
  segment : Option SegReg
  operandSize : Bool
  addressSize : Bool
deriving DecidableEq, Repr

/-- The instructions: one constructor for each row of spec/opcode_table.json. The twelve prefix rows stand for one prefix byte
each (format PREFIX); `rep` and `repe` are the two rows of the byte F3 (90_conflicts.md C9). -/
inductive Instr where
  | cmc
  | rep
  | repe
  | repne
  | lock
  | csOverride
  | ssOverride
  | dsOverride
  | esOverride
  | fsOverride
  | gsOverride
  | operandSizeOverride
  | addressSizeOverride
deriving DecidableEq, Repr

/-- The addressing bytes of an instruction: ModR/M byte, SIB byte and displacement bytes in memory order (R70, R97). -/
structure Addressing where
  modrm : Option Byte
  sib : Option Byte
  disp : List Byte
deriving DecidableEq, Repr

/-- The fields of one whole instruction: what the decoder of R97 returns. -/
structure Decoded where
  prefixes : PrefixSet
  opcode : List Byte
  addressing : Addressing
  imm : List Byte
  operandSize : Size
  addressSize : Size
  length : Nat
deriving DecidableEq, Repr

/-- An operand named by a ModR/M byte (41_addressing_forms.md): a register code, or an offset in a segment. A 16-bit offset
stands zero-extended. -/
inductive Operand where
  | reg (code : BitVec 3)
  | mem (seg : SegReg) (ea : DWord)
deriving DecidableEq, Repr

/-- The forms of the CMPS instruction the source names (R180). -/
inductive CmpsForm where
  | cmps
  | cmpsw
  | cmpsd
deriving DecidableEq, Repr

end Sys2Proof
end

