-- ==== Sys2Proof/Machine/Fields.lean ====
section
/-! DEFINITION. Bit fields, byte order and the byte values of the encoding: how bytes are cut and put together (30_encoding.md,
20_memory.md R51). Used by the well-formedness check, the decoder, the encoder and the machine. -/

namespace Sys2Proof.Machine

/-! ## Sizes -/

/-- How many bytes an access of this width touches (R54). -/
def accessBytes : AccessWidth → Nat
  | .byte => 1
  | .word => 2
  | .dword => 4

/-- How many bytes an operand of this size has: `OperandSize / 8` (R181). -/
def sizeBytes : Size → Nat
  | .s16 => 2
  | .s32 => 4

/-- The access width of an operand of this size (R6). -/
def sizeWidth : Size → AccessWidth
  | .s16 => .word
  | .s32 => .dword

/-- The other of the two sizes: `48 - x` (R95). -/
def otherSize : Size → Size
  | .s16 => .s32
  | .s32 => .s16

/-! ## The bytes that are prefixes -/

/-- The byte value of a prefix (R71, R72, R73). -/
def prefixValue : PrefixByte → Byte
  | .repeating .f2 => 0xF2
  | .repeating .f3 => 0xF3
  | .lock => 0xF0
  | .segment .cs => 0x2E
  | .segment .ss => 0x36
  | .segment .ds => 0x3E
  | .segment .es => 0x26
  | .segment .fs => 0x64
  | .segment .gs => 0x65
  | .operandSize => 0x66
  | .addressSize => 0x67

/-- The prefix a byte value is, if it is one: exactly the eleven values of R73. -/
def prefixOfByte (b : Byte) : Option PrefixByte :=
  if b = 0xF2 then some (.repeating .f2)
  else if b = 0xF3 then some (.repeating .f3)
  else if b = 0xF0 then some .lock
  else if b = 0x2E then some (.segment .cs)
  else if b = 0x36 then some (.segment .ss)
  else if b = 0x3E then some (.segment .ds)
  else if b = 0x26 then some (.segment .es)
  else if b = 0x64 then some (.segment .fs)
  else if b = 0x65 then some (.segment .gs)
  else if b = 0x66 then some .operandSize
  else if b = 0x67 then some .addressSize
  else none

/-- The class of a prefix byte (R74). -/
def prefixClass : PrefixByte → PrefixClass
  | .repeating _ => .repeating
  | .lock => .lock
  | .segment _ => .segment
  | .operandSize => .operandSize
  | .addressSize => .addressSize

/-- The empty prefix set. -/
def noPrefixes : PrefixSet :=
  { repeating := none, lock := false, segment := none, operandSize := false, addressSize := false }

/-- Whether a prefix byte of this class is in the set (R74). -/
def holdsClass (P : PrefixSet) : PrefixClass → Bool
  | .repeating => P.repeating.isSome
  | .lock => P.lock
  | .segment => P.segment.isSome
  | .operandSize => P.operandSize
  | .addressSize => P.addressSize

/-- The set with one prefix byte recorded: `P + {b}` (R97). -/
def recordByte (P : PrefixSet) : PrefixByte → PrefixSet
  | .repeating b => { P with repeating := some b }
  | .lock => { P with lock := true }
  | .segment r => { P with segment := some r }
  | .operandSize => { P with operandSize := true }
  | .addressSize => { P with addressSize := true }

/-- The prefixes of a set, one of each class it holds, in the order in which R74 lists the classes. -/
def prefixList (P : PrefixSet) : List PrefixByte :=
  (P.repeating.map PrefixByte.repeating).toList ++ (if P.lock then [.lock] else [])
    ++ (P.segment.map PrefixByte.segment).toList ++ (if P.operandSize then [.operandSize] else [])
    ++ (if P.addressSize then [.addressSize] else [])

/-- How many prefix bytes the set holds: the length of the prefix field (R88), since no byte is repeated (R74). -/
def prefixCount (P : PrefixSet) : Nat := (prefixList P).length

/-- `OperandSize` of an instruction with the prefix set `P` (R95). -/
def operandSizeOf (p : Launch) (P : PrefixSet) : Size :=
  if P.operandSize then otherSize p.defaultOperandSize else p.defaultOperandSize

/-- `AddressSize` of an instruction with the prefix set `P` (R95). -/
def addressSizeOf (p : Launch) (P : PrefixSet) : Size :=
  if P.addressSize then otherSize p.defaultAddressSize else p.defaultAddressSize

/-! ## The ModR/M and SIB bytes -/

/-- `Mod = m[7:6]` (R78). -/
def modField (m : Byte) : BitVec 2 := m.extractLsb' 6 2

/-- `REG = m[5:3]` (R78). -/
def regField (m : Byte) : BitVec 3 := m.extractLsb' 3 3

/-- `R/M = m[2:0]` (R78). -/
def rmField (m : Byte) : BitVec 3 := m.extractLsb' 0 3

/-- The scale field `SS = s[7:6]` (R82). -/
def scaleField (s : Byte) : BitVec 2 := s.extractLsb' 6 2

/-- `Index = s[5:3]` (R82). -/
def indexField (s : Byte) : BitVec 3 := s.extractLsb' 3 3

/-- `Base = s[2:0]` (R82). -/
def baseField (s : Byte) : BitVec 3 := s.extractLsb' 0 3

/-- The byte with these three fields, the cells of Tables 17-2, 17-3 and 17-4: `64 a + 8 b + c` (R78, R82). -/
def joinFields (a : BitVec 2) (b c : BitVec 3) : Byte := a ++ b ++ c

/-- Whether a SIB byte follows the ModR/M byte (R77, R96). -/
def hasSIB (size : Size) (m : Byte) : Bool :=
  size == .s32 && modField m != 3 && rmField m == 4

/-- How many displacement bytes follow (R84, R85, R96); `s` is the SIB byte where there is one. -/
def dispBytes (size : Size) (m : Byte) (s : Option Byte) : Nat :=
  match size with
  | .s16 =>
    if modField m = 2 ∨ (modField m = 0 ∧ rmField m = 6) then 2
    else if modField m = 1 then 1
    else 0
  | .s32 =>
    if modField m = 2 then 4
    else if modField m = 0 ∧ rmField m = 5 then 4
    else if modField m = 0 ∧ rmField m = 4 ∧ s.map baseField = some 5 then 4
    else if modField m = 1 then 1
    else 0

/-! ## Byte order -/

/-- The unsigned number that bytes in ascending address order stand for, the lowest address least significant (R51). -/
def littleEndian : List Byte → Nat
  | [] => 0
  | b :: bs => b.toNat + 256 * littleEndian bs

/-- The low `n` bytes of a value in ascending address order: the byte at `a + k` is bits `8k+7` to `8k` (R51). -/
def bytesOf (v : DWord) : Nat → List Byte
  | 0 => []
  | n + 1 => v.extractLsb' 0 8 :: bytesOf (v >>> 8) n

/-- The value of a 16-bit form's displacement bytes (R86): a disp8 sign-extended, a disp16 as it is, 0 where there is none. -/
def dispValue16 : List Byte → Word
  | [d0] => d0.signExtend 16
  | [d0, d1] => d1 ++ d0
  | _ => 0

/-- The value of a 32-bit form's displacement bytes (R86): a disp8 sign-extended, a disp32 as it is, 0 where there is none. -/
def dispValue32 : List Byte → DWord
  | [d0] => d0.signExtend 32
  | [d0, d1, d2, d3] => d3 ++ d2 ++ d1 ++ d0
  | _ => 0

/-! ## Opcode shapes -/

/-- The shape of CMC's opcode F5: no ModR/M byte, no immediate (R93, R97). -/
def cmcShape : Shape :=
  { hasModRM := false, regField := .unused, immBytes16 := 0, immBytes32 := 0, byteOperand := false }

/-- The first row for a byte in a table keyed by bytes. -/
def lookupByte {α : Type} (b : Byte) : List (Byte × α) → Option α
  | [] => none
  | (k, v) :: rows => if k = b then some v else lookupByte b rows

/-- `OpcodeShape` of a first opcode byte (R5, R93): the row F5 is the source's own, every other row the launch's. -/
def shapeEntry (p : Launch) (op : Byte) : Option ShapeEntry :=
  if op = 0xF5 then some (.oneByte cmcShape) else lookupByte op p.opcodeShape

/-- `OpcodeShape` of the whole primary opcode, one byte or two (R75). -/
def shapeOf (p : Launch) : List Byte → Option Shape
  | [op] =>
    match shapeEntry p op with
    | some (.oneByte sh) => some sh
    | _ => none
  | [op, op2] =>
    match shapeEntry p op with
    | some (.twoByte rows) => lookupByte op2 rows
    | _ => none
  | _ => none

/-- How many immediate bytes a shape asks for at an operand size (R87). -/
def immBytes (sh : Shape) : Size → Nat
  | .s16 => sh.immBytes16
  | .s32 => sh.immBytes32

/-! ## Register codes -/

/-- The code of a 32-bit register name (R20, table `rd` of R90). -/
def code32 : Reg32 → BitVec 3
  | .eax => 0
  | .ecx => 1
  | .edx => 2
  | .ebx => 3
  | .esp => 4
  | .ebp => 5
  | .esi => 6
  | .edi => 7

/-- The 32-bit register with a code (R20). -/
def reg32 (c : BitVec 3) : Reg32 :=
  if c = 0 then .eax else if c = 1 then .ecx else if c = 2 then .edx else if c = 3 then .ebx
  else if c = 4 then .esp else if c = 5 then .ebp else if c = 6 then .esi else .edi

/-- The code of a 16-bit register name (R21, table `rw` of R90). -/
def code16 : Reg16 → BitVec 3
  | .ax => 0
  | .cx => 1
  | .dx => 2
  | .bx => 3
  | .sp => 4
  | .bp => 5
  | .si => 6
  | .di => 7

/-- The 16-bit register with a code (R21). -/
def reg16 (c : BitVec 3) : Reg16 :=
  if c = 0 then .ax else if c = 1 then .cx else if c = 2 then .dx else if c = 3 then .bx
  else if c = 4 then .sp else if c = 5 then .bp else if c = 6 then .si else .di

/-- The code of an 8-bit register name (R22, table `rb` of R90). -/
def code8 : Reg8 → BitVec 3
  | .al => 0
  | .cl => 1
  | .dl => 2
  | .bl => 3
  | .ah => 4
  | .ch => 5
  | .dh => 6
  | .bh => 7

/-- The 8-bit register with a code (R22). -/
def reg8 (c : BitVec 3) : Reg8 :=
  if c = 0 then .al else if c = 1 then .cl else if c = 2 then .dl else if c = 3 then .bl
  else if c = 4 then .ah else if c = 5 then .ch else if c = 6 then .dh else .bh

/-! ## The exception table and the clock table -/

/-- The interrupt number of an exception (Table 17-6, R201; the numbers are decimal). -/
def interruptNumber : ExceptionName → Nat
  | .ud => 6
  | .nm => 7
  | .df => 8
  | .ts => 10
  | .np => 11
  | .ss => 12
  | .gp => 13
  | .pf => 14
  | .mf => 16

/-- The mnemonic of an exception, a pound sign and two letters (R200, R201). -/
def exceptionMnemonic : ExceptionName → String
  | .ud => "#UD"
  | .nm => "#NM"
  | .df => "#DF"
  | .ts => "#TS"
  | .np => "#NP"
  | .ss => "#SS"
  | .gp => "#GP"
  | .pf => "#PF"
  | .mf => "#MF"

/-- The description of an exception (Table 17-6, R201). -/
def exceptionDescription : ExceptionName → String
  | .ud => "Invalid opcode"
  | .nm => "Coprocessor not available"
  | .df => "Double fault"
  | .ts => "Invalid TSS"
  | .np => "Segment or gate not present"
  | .ss => "Stack fault"
  | .gp => "General protection fault"
  | .pf => "Page fault"
  | .mf => "Math (coprocessor) fault"

/-- An exception as an instruction page writes it, with the optional error code in parentheses: `#GP(0)` (R200). -/
def exceptionText (e : ExceptionName) : Option Nat → String
  | none => exceptionMnemonic e
  | some n => exceptionMnemonic e ++ "(" ++ Nat.repr n ++ ")"

/-- The clocks of a ClockEntry for a register or a memory operand (R234). -/
def clocksFor : ClockEntry → Bool → Nat
  | .plain n, _ => n
  | .registerOrMemory r _, false => r
  | .registerOrMemory _ m, true => m

/-- The "Clocks" entry of CMC (R171). -/
def cmcClocks : ClockEntry := .plain 2

/-- Table 17-5 as the extraction gives it (R236), damaged and not to be relied on (90_conflicts.md C12); read by no rule (R238). -/
def taskSwitchClocks : OldTask → NewTask → Nat
  | .tss386vm0, .tss386vm0 => 309
  | .tss386vm0, .tss286 => 282
  | .tss386vm1, .tss386vm0 => 314
  | .tss386vm1, .tss286 => 231
  | .tss286, .tss386vm0 => 307
  | .tss286, .tss286 => 282

end Sys2Proof.Machine
end

