-- ==== Sys2Proof/Machine/State.lean ====
section
/-! DEFINITION. The state of the machine as plain data, every piece the spec names (10_state.md R20 to R38), the ways a step
stops, and the state the model starts from. -/

namespace Sys2Proof.Machine

/-- The eight 32-bit general registers (R20). -/
structure Regs where
  eax : DWord
  ecx : DWord
  edx : DWord
  ebx : DWord
  esp : DWord
  ebp : DWord
  esi : DWord
  edi : DWord
deriving DecidableEq, Repr

/-- The six segment registers, each holding a selector (R30; log 7). -/
structure SegRegs where
  cs : Word
  ss : Word
  ds : Word
  es : Word
  fs : Word
  gs : Word
deriving DecidableEq, Repr

/-- Memory: bytes by location, locations strictly rising; a location that is not listed reads as one fixed byte, which no cell
lists (R36, R37; DESIGN CHOICE, log 5). -/
abbrev Memory := List Host.Cell

/-- A set of locations, strictly rising. -/
abbrev Locations := List Nat

/-- The state (R38). `prefixes` is the set P of the instruction in progress (R97): `ip` stays at the instruction's first byte
until the instruction is complete (R26). `fetched` and `stored` are the locations fetched and stored to so far in the run,
which R61 asks for. `launch` holds the parameters of R5. -/
structure State where
  regs : Regs
  segs : SegRegs
  ip : DWord
  cf : Bool
  prefixes : PrefixSet
  mem : Memory
  fetched : Locations
  stored : Locations
  launch : Launch
deriving DecidableEq, Repr

/-- How a step stops in a fault: `Translate` is the only source (R213). -/
inductive Fault where
  /-- An exception of Table 17-6 with its number, its optional error code and the `ip` of the instruction (R212, R216). Raised by
  every access that `Translate` answers with a fault. The run ends: no handler is entered. Safe: it stops where the chip goes on. -/
  | exception (name : ExceptionName) (number : Nat) (code : Option Nat) (ip : DWord)
deriving DecidableEq, Repr

/-- How a step is refused: the model gives the input no meaning (R8). -/
inductive Refusal where
  /-- An instruction of the table without a meaning; no arm of `exec` answers it. Safe. -/
  | notModelled (mnemonic : String)
  /-- CMC after a prefix (R132). Raised by CMC. Safe. -/
  | prefixOnCMC
  /-- A second prefix byte of one class (R74). Raised by the prefix rows. Safe. -/
  | repeatedPrefixClass
  /-- An opcode `OpcodeShape` does not show (R94). Raised by the fetch. Safe. -/
  | opcodeNotShown
  /-- An instruction longer than `MaxInstrLength` (R89). Raised by the fetch. Safe. -/
  | tooLong
  /-- An opcode that the launch's `OpcodeShape` shows but whose instruction page is not in the source (R4, R14; log 30). Raised by
  the fetch. Safe. -/
  | noInstructionPage (opcode : List Byte)
  /-- A store that touches a byte fetched in this run (R61). Raised by stores. Safe. -/
  | storeToFetched
  /-- A fetch of a byte stored in this run (R61). Raised by the fetch. Safe. -/
  | fetchOfStored
  /-- A fetch that would cross the top of the 2^32 offset space (R26). Raised by the fetch. Safe. -/
  | fetchAcrossTop
  /-- A step after the run has ended at `end_ip` (R239; log 10). Raised by `step`. Safe: nothing is said of the chip there. -/
  | runEnded
deriving DecidableEq, Repr

/-- The two ways in which an operation stops. -/
inductive Stop where
  | fault (f : Fault)
  | refusal (r : Refusal)
deriving DecidableEq, Repr

/-- A stop as the outcome of a step. -/
def Stop.outcome : Stop → Host.Outcome State Fault Refusal
  | .fault f => .fault f
  | .refusal r => .refused r

/-- The launch parameters of `State.reset`: the spec fixes none (R37); the first value that R5 lists for each, the values the
spec suggests for `MaxInstrLength` and `IOMapPtrOffset`, the flat `Translate` and no end of the run (DESIGN CHOICE, log 4). -/
def Launch.reset : Launch :=
  { defaultOperandSize := .s16
    defaultAddressSize := .s16
    stackAddrSize := .s16
    opcodeShape := []
    maxInstrLength := 15
    translate := []
    ioMapPtrOffset := 102
    mode := .realAddress
    tssType := .tss286
    tss := 0
    endIp := none }

/-- The state the model starts from. The spec has no reset step and gives no value (R37, R230): every register is zero
(DESIGN CHOICE, log 3), memory lists nothing (DESIGN CHOICE, log 5), no prefix is recorded. -/
def State.reset : State :=
  { regs := { eax := 0, ecx := 0, edx := 0, ebx := 0, esp := 0, ebp := 0, esi := 0, edi := 0 }
    segs := { cs := 0, ss := 0, ds := 0, es := 0, fs := 0, gs := 0 }
    ip := 0
    cf := false
    prefixes := noPrefixes
    mem := []
    fetched := []
    stored := []
    launch := Launch.reset }

end Sys2Proof.Machine
end

