-- ==== Sys2Proof/Machine/Flags.lean ====
section
/-! DEFINITION. The flags: the carry flag is the one flag the spec names (R27, R29); its place in a flags register is not in the
spec and nothing here depends on one. VM is a view of the operating mode (R28). -/

namespace Sys2Proof.Machine

/-- `CF <- b` (R8, R27). -/
def State.setCF (s : State) (b : Bool) : State := { s with cf := b }

/-- `NOT CF` (R170). -/
def complementCF (s : State) : Bool := !s.cf

/-- VM, which appears only as the `Mode` parameter (R28; log 24). -/
def State.vm (s : State) : Bool := s.launch.mode == .virtual8086

end Sys2Proof.Machine
end

