-- ==== Sys2Proof/Machine/Ops.lean ====
section
/-! DEFINITION. The named operations over registers, memory, `Translate`, exceptions and the instruction in progress. -/

namespace Sys2Proof.Machine

/-! ## General registers (R20 to R23) -/

/-- The register with a 32-bit name (R20). -/
def Regs.get (g : Regs) : Reg32 → DWord
  | .eax => g.eax
  | .ecx => g.ecx
  | .edx => g.edx
  | .ebx => g.ebx
  | .esp => g.esp
  | .ebp => g.ebp
  | .esi => g.esi
  | .edi => g.edi

/-- The registers with one written (R8). -/
def Regs.set (g : Regs) (r : Reg32) (v : DWord) : Regs :=
  match r with
  | .eax => { g with eax := v }
  | .ecx => { g with ecx := v }
  | .edx => { g with edx := v }
  | .ebx => { g with ebx := v }
  | .esp => { g with esp := v }
  | .ebp => { g with ebp := v }
  | .esi => { g with esi := v }
  | .edi => { g with edi := v }

/-- The 32-bit register a 16-bit name is the low half of (R23). -/
def parent16 : Reg16 → Reg32
  | .ax => .eax
  | .cx => .ecx
  | .dx => .edx
  | .bx => .ebx
  | .sp => .esp
  | .bp => .ebp
  | .si => .esi
  | .di => .edi

/-- The 32-bit register an 8-bit name is part of (R23). -/
def parent8 : Reg8 → Reg32
  | .al => .eax
  | .cl => .ecx
  | .dl => .edx
  | .bl => .ebx
  | .ah => .eax
  | .ch => .ecx
  | .dh => .edx
  | .bh => .ebx

/-- Whether an 8-bit name is bits 15 to 8 of its register (codes 4 to 7), not bits 7 to 0 (R23). -/
def isHigh8 : Reg8 → Bool
  | .al => false
  | .cl => false
  | .dl => false
  | .bl => false
  | .ah => true
  | .ch => true
  | .dh => true
  | .bh => true

/-- `r32[i]` (R8). -/
def State.read32 (s : State) (r : Reg32) : DWord := s.regs.get r

/-- `r32[i] <- v` (R8). -/
def State.write32 (s : State) (r : Reg32) (v : DWord) : State := { s with regs := s.regs.set r v }

/-- `r16[i]`, bits 15 to 0 (R23). -/
def State.read16 (s : State) (r : Reg16) : Word := (s.read32 (parent16 r)).extractLsb' 0 16

/-- `r16[i] <- v`: bits 31 to 16 keep their value (R23). -/
def State.write16 (s : State) (r : Reg16) (v : Word) : State :=
  s.write32 (parent16 r) ((s.read32 (parent16 r)).extractLsb' 16 16 ++ v)

/-- `r8[i]`: bits 7 to 0 for codes 0 to 3, bits 15 to 8 for codes 4 to 7 (R23). -/
def State.read8 (s : State) (r : Reg8) : Byte :=
  if isHigh8 r then (s.read32 (parent8 r)).extractLsb' 8 8 else (s.read32 (parent8 r)).extractLsb' 0 8

/-- `r8[i] <- v`: the other bits of the register keep their value (R23). -/
def State.write8 (s : State) (r : Reg8) (v : Byte) : State :=
  let old := s.read32 (parent8 r)
  if isHigh8 r then s.write32 (parent8 r) (old.extractLsb' 16 16 ++ v ++ old.extractLsb' 0 8)
  else s.write32 (parent8 r) (old.extractLsb' 8 24 ++ v)

/-- The selector in a segment register (R30). -/
def State.selector (s : State) : SegReg → Word
  | .cs => s.segs.cs
  | .ss => s.segs.ss
  | .ds => s.segs.ds
  | .es => s.segs.es
  | .fs => s.segs.fs
  | .gs => s.segs.gs

/-! ## Memory as a list of cells -/

/-- What a location that memory does not list reads as. The spec gives memory no contents at launch (R37): DESIGN CHOICE, unsafe,
log 5. -/
def unlistedByte : Byte := 0

/-- The byte at a location. -/
def Memory.read (m : Memory) (l : Nat) : Byte :=
  match m with
  | [] => unlistedByte
  | (k, b) :: rest => if k = l then b else Memory.read rest l

/-- The memory with a cell for one location; the cells stay in rising order. -/
def Memory.list (m : Memory) (l : Nat) (v : Byte) : Memory :=
  match m with
  | [] => [(l, v)]
  | (k, b) :: rest =>
    if l < k then (l, v) :: (k, b) :: rest
    else if l = k then (l, v) :: rest
    else (k, b) :: Memory.list rest l v

/-- The memory with no cell for one location. -/
def Memory.unlist (m : Memory) (l : Nat) : Memory := m.filter (fun c => c.1 != l)

/-- The memory with the byte at one location written; the byte an unlisted location reads as is not listed. -/
def Memory.write (m : Memory) (l : Nat) (v : Byte) : Memory :=
  if v = unlistedByte then m.unlist l else m.list l v

/-- Every location of a list is above `l`, and the list rises strictly. -/
def risingAbove : Option Nat → Locations → Bool
  | _, [] => true
  | none, l :: rest => risingAbove (some l) rest
  | some k, l :: rest => decide (k < l) && risingAbove (some l) rest

/-- The canonical form of a set of locations: strictly rising. -/
def Locations.wf (ls : Locations) : Bool := risingAbove none ls

/-- The canonical form of memory: locations strictly rising, no cell with the byte an unlisted location reads as. -/
def Memory.wf (m : Memory) : Bool := Locations.wf (m.map Prod.fst) && m.all (fun c => c.2 != unlistedByte)

/-- A set of locations with one more. -/
def Locations.add (ls : Locations) (l : Nat) : Locations :=
  match ls with
  | [] => [l]
  | k :: rest => if l < k then l :: k :: rest else if l = k then k :: rest else k :: Locations.add rest l

/-- Several bytes written at the locations given for them, in order. -/
def Memory.writeAll (m : Memory) : List Nat → List Byte → Memory
  | l :: ls, v :: vs => Memory.writeAll (m.write l v) ls vs
  | _, _ => m

/-- A set of locations with several more. -/
def Locations.addAll (ls : Locations) : List Nat → Locations
  | [] => ls
  | l :: more => Locations.addAll (ls.add l) more

/-! ## `Translate` -/

/-- Whether a selector of a row admits a value: `none` admits any. -/
def admits {α : Type} [DecidableEq α] (sel : Option α) (a : α) : Bool :=
  match sel with
  | none => true
  | some b => b == a

/-- Whether a row of the table speaks of a query. -/
def rowCovers (r : TranslateRow) (q : TranslateQuery) : Bool :=
  admits r.source q.source && decide (r.lo ≤ q.offset) && decide (q.offset ≤ r.hi) && admits r.width q.width
    && admits r.byte q.byte && admits r.kind q.kind

/-- What a row answers to a query it covers: offset `lo` is placed at the base and the offsets after it follow; a row for every
byte of an access places byte `k` of the access `k` locations on, a row for one byte places that byte. -/
def rowAnswer (r : TranslateRow) (q : TranslateQuery) : TranslateAnswer :=
  match r.answer with
  | .fault e c => .fault e c
  | .location b => .location (b + (q.offset - r.lo) + if r.byte.isSome then 0 else q.byte)

/-- `Translate` (R5, R52, D6): the first row that covers the query answers; where none does, the flat answer: the location is
the byte's ascending offset (log 6). -/
def translate (rows : List TranslateRow) (q : TranslateQuery) : TranslateAnswer :=
  match rows with
  | [] => .location (q.offset + q.byte)
  | r :: rest => if rowCovers r q then rowAnswer r q else translate rest q

/-! ## Taking an exception -/

/-- `raise #XX(code)` (R8, R212, R216): the step ends in the exception, with its number, its optional error code and the `ip` of the
instruction. No handler is entered and nothing else of the instruction is kept. The spec describes no return (R218). -/
def raiseException (s : State) (e : ExceptionName) (code : Option Nat) : Stop :=
  .fault (.exception e (interruptNumber e) code s.ip)

/-! ## Memory accesses -/

/-- The locations of bytes `k` to `k + n - 1` of an access, each asked of `Translate` in ascending order; the first that faults
raises its exception (R50, R52, R215). -/
def locate (s : State) (source : AddressSource) (offset : Nat) (width : AccessWidth) (kind : AccessKind) (k : Nat) :
    Nat → Except Stop (List Nat)
  | 0 => .ok []
  | n + 1 =>
    match translate s.launch.translate { source := source, offset := offset, width := width, byte := k, kind := kind } with
    | .fault e c => .error (raiseException s e c)
    | .location l =>
      match locate s source offset width kind (k + 1) n with
      | .error e => .error e
      | .ok ls => .ok (l :: ls)

/-- `MemRead(seg, off, n)` (R8, R51): the unsigned number of the access's bytes, zero-extended. Only `Translate` stops it (R213). -/
def memRead (s : State) (source : AddressSource) (offset : Nat) (width : AccessWidth) : Except Stop DWord :=
  match locate s source offset width .load 0 (accessBytes width) with
  | .error e => .error e
  | .ok ls => .ok (BitVec.ofNat 32 (littleEndian (ls.map s.mem.read)))

/-- The state with bytes stored at locations, which join the locations stored in this run (R61). -/
def State.store (s : State) (ls : List Nat) (vs : List Byte) : State :=
  { s with mem := s.mem.writeAll ls vs, stored := s.stored.addAll ls }

/-- `MemWrite(seg, off, n, v)` (R8, R51): byte `k` of the access gets bits `8k+7` to `8k` of the value. A store that touches a byte
fetched in this run is refused (R61). Where any byte of the access faults, nothing is written (R8). -/
def memWrite (s : State) (source : AddressSource) (offset : Nat) (width : AccessWidth) (v : DWord) : Except Stop State :=
  match locate s source offset width .store 0 (accessBytes width) with
  | .error e => .error e
  | .ok ls =>
    if ls.any (fun l => s.fetched.contains l) then .error (.refusal .storeToFetched)
    else .ok (s.store ls (bytesOf v (accessBytes width)))

/-! ## The instruction in progress -/

/-- The state with a location noted as fetched (R61). -/
def State.noteFetched (s : State) (l : Nat) : State := { s with fetched := s.fetched.add l }

/-- The state with the prefix set of the instruction in progress. -/
def State.setPrefixes (s : State) (P : PrefixSet) : State := { s with prefixes := P }

/-- A prefix byte of the instruction in progress: recorded in P (R97, R120 to R131), or refused where P holds one of its class
(R74). Nothing else changes: `ip` stays at the first byte of the instruction (R26). -/
def recordPrefix (q : PrefixByte) (s : State) : Host.Outcome State Fault Refusal :=
  if holdsClass s.prefixes (prefixClass q) then .refused .repeatedPrefixClass
  else .next (s.setPrefixes (recordByte s.prefixes q))

/-- The instruction in progress is complete: `ip <- ip +_Wip length` (R26), and no prefix is recorded for the next one. -/
def State.advance (s : State) (length : Nat) : State :=
  { s with ip := s.ip + BitVec.ofNat 32 length, prefixes := noPrefixes }

end Sys2Proof.Machine
end

