-- ==== Sys2Proof/Machine/Cmc.lean ====
section
/-! DEFINITION. CMC (42_cmc.md). -/

namespace Sys2Proof.Machine

/-- CMC (R170): `CF <- NOT CF`, `ip <- ip +_Wip 1`; nothing else changes. After a prefix it is refused (R132). -/
def execCmc (s : State) : Host.Outcome State Fault Refusal :=
  if s.prefixes = noPrefixes then .next ((s.setCF (complementCF s)).advance 1)
  else .refused .prefixOnCMC

end Sys2Proof.Machine
end

