-- ==== Sys2Proof/Machine/Prefixes.lean ====
section
/-! DEFINITION. The twelve prefix rows (40_prefixes.md): each records its byte in the prefix set of the instruction in progress
(log 1). What the recorded prefix does is read from the set by the instruction it stands before: the segment by R154, the sizes
by R95. -/

namespace Sys2Proof.Machine

/-- REP, byte F3 (R120). -/
def execRep (s : State) : Host.Outcome State Fault Refusal := recordPrefix (.repeating .f3) s

/-- REPE/REPZ, the same byte F3 (R121). -/
def execRepe (s : State) : Host.Outcome State Fault Refusal := recordPrefix (.repeating .f3) s

/-- REPNE/REPNZ, byte F2 (R122). -/
def execRepne (s : State) : Host.Outcome State Fault Refusal := recordPrefix (.repeating .f2) s

/-- LOCK, byte F0 (R123). -/
def execLock (s : State) : Host.Outcome State Fault Refusal := recordPrefix .lock s

/-- CS segment override, byte 2E (R124). -/
def execCsOverride (s : State) : Host.Outcome State Fault Refusal := recordPrefix (.segment .cs) s

/-- SS segment override, byte 36 (R125). -/
def execSsOverride (s : State) : Host.Outcome State Fault Refusal := recordPrefix (.segment .ss) s

/-- DS segment override, byte 3E (R126). -/
def execDsOverride (s : State) : Host.Outcome State Fault Refusal := recordPrefix (.segment .ds) s

/-- ES segment override, byte 26 (R127). -/
def execEsOverride (s : State) : Host.Outcome State Fault Refusal := recordPrefix (.segment .es) s

/-- FS segment override, byte 64 (R128). -/
def execFsOverride (s : State) : Host.Outcome State Fault Refusal := recordPrefix (.segment .fs) s

/-- GS segment override, byte 65 (R129). -/
def execGsOverride (s : State) : Host.Outcome State Fault Refusal := recordPrefix (.segment .gs) s

/-- Operand-size override, byte 66 (R130). -/
def execOperandSizeOverride (s : State) : Host.Outcome State Fault Refusal := recordPrefix .operandSize s

/-- Address-size override, byte 67 (R131). -/
def execAddressSizeOverride (s : State) : Host.Outcome State Fault Refusal := recordPrefix .addressSize s

end Sys2Proof.Machine
end

