-- ==== Sys2Proof/Machine/Dispatch.lean ====
section
/-! DEFINITION. One arm per instruction of the table. -/

namespace Sys2Proof.Machine

def exec (i : Instr) (s : State) : Host.Outcome State Fault Refusal :=
  match i with
  | .cmc => Sys2Proof.Machine.execCmc s
  | .rep => Sys2Proof.Machine.execRep s
  | .repe => Sys2Proof.Machine.execRepe s
  | .repne => Sys2Proof.Machine.execRepne s
  | .lock => Sys2Proof.Machine.execLock s
  | .csOverride => Sys2Proof.Machine.execCsOverride s
  | .ssOverride => Sys2Proof.Machine.execSsOverride s
  | .dsOverride => Sys2Proof.Machine.execDsOverride s
  | .esOverride => Sys2Proof.Machine.execEsOverride s
  | .fsOverride => Sys2Proof.Machine.execFsOverride s
  | .gsOverride => Sys2Proof.Machine.execGsOverride s
  | .operandSizeOverride => Sys2Proof.Machine.execOperandSizeOverride s
  | .addressSizeOverride => Sys2Proof.Machine.execAddressSizeOverride s

end Sys2Proof.Machine
end

