-- ==== Sys2Proof/WellFormed.lean ====
section
/-! DEFINITION. Well-formedness of the syntax: an instruction of the table as the decoder names it, and a whole instruction
whose fields fit together under the launch parameters (R70, R77, R84 to R89, R95). -/

namespace Sys2Proof

open Sys2Proof.Machine

/-- The name the decoder gives an instruction's byte: F3 has two rows, REP and REPE/REPZ, and is one prefix to the decoder
(90_conflicts.md C9, R121), which the model reads as REP (log 2). -/
def Instr.canonical : Instr → Instr
  | .repe => .rep
  | i => i

/-- An instruction is well-formed where it is the decoder's own name of its byte: all but `repe`, the second name of F3. -/
def Instr.wellFormed (i : Instr) : Bool := i.canonical = i

/-- The addressing bytes fit the shape and the address size: a ModR/M byte exactly where the shape has one, a SIB byte exactly
where R77 asks for one, as many displacement bytes as R84 and R85 say. -/
def Addressing.wellFormed (hasModRM : Bool) (size : Size) (a : Addressing) : Bool :=
  match hasModRM, a.modrm with
  | false, none => a.sib.isNone && a.disp.isEmpty
  | true, some m => a.sib.isSome == hasSIB size m && a.disp.length == dispBytes size m a.sib
  | _, _ => false

/-- How many addressing bytes there are. -/
def Addressing.size (a : Addressing) : Nat :=
  a.modrm.toList.length + a.sib.toList.length + a.disp.length

/-- A whole instruction is well-formed under the launch parameters: its first opcode byte is no prefix byte, `OpcodeShape` has
its opcode, its addressing and immediate bytes fit the shape, its sizes are those of R95, its length is that of R88 and
not over `MaxInstrLength` (R89). -/
def Decoded.wellFormed (p : Launch) (d : Decoded) : Bool :=
  match shapeOf p d.opcode with
  | none => false
  | some sh =>
    (d.opcode.head?.bind prefixOfByte).isNone
      && d.addressSize == addressSizeOf p d.prefixes
      && d.operandSize == operandSizeOf p d.prefixes
      && d.addressing.wellFormed sh.hasModRM d.addressSize
      && d.imm.length == immBytes sh d.operandSize
      && d.length == prefixCount d.prefixes + d.opcode.length + d.addressing.size + d.imm.length
      && decide (d.length ≤ p.maxInstrLength)

end Sys2Proof
end

