-- ==== Sys2Proof/Decode.lean ====
section
/-! DEFINITION. Decoding and encoding. `decodeByte` reads one row of spec/opcode_table.json from its byte; `decodeWhole` is the
decoder of R97 over any supply of instruction bytes; `encode` and `encodeWhole` write the bytes back. -/

namespace Sys2Proof

open Sys2Proof.Machine

/-- Why the decoder of R97 refuses (R74, R94, R89). -/
inductive Reject where
  | repeatedPrefixClass
  | opcodeNotShown
  | tooLong
deriving DecidableEq, Repr

/-- Why a decoder that reads a list of bytes stops: it refuses, or the list ended within the instruction. -/
inductive ListReject where
  | reject (r : Reject)
  | bytesExhausted
deriving DecidableEq, Repr

/-! ## One row of the opcode table -/

/-- The row a prefix byte is: F3 is read as REP (log 2). -/
def instrOfPrefix : PrefixByte → Instr
  | .repeating .f3 => .rep
  | .repeating .f2 => .repne
  | .lock => .lock
  | .segment .cs => .csOverride
  | .segment .ss => .ssOverride
  | .segment .ds => .dsOverride
  | .segment .es => .esOverride
  | .segment .fs => .fsOverride
  | .segment .gs => .gsOverride
  | .operandSize => .operandSizeOverride
  | .addressSize => .addressSizeOverride

/-- The prefix byte an instruction records: none for CMC (R120 to R131). -/
def prefixOfInstr : Instr → Option PrefixByte
  | .cmc => none
  | .rep => some (.repeating .f3)
  | .repe => some (.repeating .f3)
  | .repne => some (.repeating .f2)
  | .lock => some .lock
  | .csOverride => some (.segment .cs)
  | .ssOverride => some (.segment .ss)
  | .dsOverride => some (.segment .ds)
  | .esOverride => some (.segment .es)
  | .fsOverride => some (.segment .fs)
  | .gsOverride => some (.segment .gs)
  | .operandSizeOverride => some .operandSize
  | .addressSizeOverride => some .addressSize

/-- The row of the table a byte is (R71 to R73, R93); every other byte is refused (R94). -/
def decodeByte (b : Byte) : Except Reject Instr :=
  match prefixOfByte b with
  | some q => .ok (instrOfPrefix q)
  | none => if b = 0xF5 then .ok .cmc else .error .opcodeNotShown

/-- The first row of a list of bytes, and the bytes after it. -/
def decode : List Byte → Except ListReject (Instr × List Byte)
  | [] => .error .bytesExhausted
  | b :: rest =>
    match decodeByte b with
    | .ok i => .ok (i, rest)
    | .error e => .error (.reject e)

/-! ## A whole instruction (R97) -/

/-- `n` bytes from index `a` on, in ascending order. -/
def fetchMany {ε : Type} (fetch : Nat → Except ε Byte) (a : Nat) : Nat → Except ε (List Byte)
  | 0 => .ok []
  | n + 1 =>
    match fetch a with
    | .error e => .error e
    | .ok b =>
      match fetchMany fetch (a + 1) n with
      | .error e => .error e
      | .ok bs => .ok (b :: bs)

/-- The primary opcode, one byte or two, whose first byte `op` stands before index `a`, and its shape (R75, R94). -/
def decodeOpcode {ε : Type} (lift : Reject → ε) (fetch : Nat → Except ε Byte) (p : Launch) (a : Nat) (op : Byte) :
    Except ε (List Byte × Shape) :=
  match shapeEntry p op with
  | none => .error (lift .opcodeNotShown)
  | some (.oneByte sh) => .ok ([op], sh)
  | some (.twoByte rows) =>
    match fetch a with
    | .error e => .error e
    | .ok op2 =>
      match lookupByte op2 rows with
      | none => .error (lift .opcodeNotShown)
      | some sh => .ok ([op, op2], sh)

/-- The ModR/M byte, SIB byte and displacement from index `a` on (R76, R77, R84, R85). -/
def decodeAddressing {ε : Type} (fetch : Nat → Except ε Byte) (hasModRM : Bool) (size : Size) (a : Nat) :
    Except ε Addressing :=
  match hasModRM with
  | false => .ok { modrm := none, sib := none, disp := [] }
  | true =>
    match fetch a with
    | .error e => .error e
    | .ok m =>
      match hasSIB size m with
      | false =>
        match fetchMany fetch (a + 1) (dispBytes size m none) with
        | .error e => .error e
        | .ok d => .ok { modrm := some m, sib := none, disp := d }
      | true =>
        match fetch (a + 1) with
        | .error e => .error e
        | .ok s =>
          match fetchMany fetch (a + 2) (dispBytes size m (some s)) with
          | .error e => .error e
          | .ok d => .ok { modrm := some m, sib := some s, disp := d }

/-- The decoder of R97 from the first opcode byte `op` on, with the prefix set `P` recorded before it; indexes count from the
first byte of the instruction. -/
def decodeTail {ε : Type} (lift : Reject → ε) (fetch : Nat → Except ε Byte) (p : Launch) (P : PrefixSet) (op : Byte) :
    Except ε Decoded :=
  match decodeOpcode lift fetch p (prefixCount P + 1) op with
  | .error e => .error e
  | .ok (opcode, sh) =>
    match decodeAddressing fetch sh.hasModRM (addressSizeOf p P) (prefixCount P + opcode.length) with
    | .error e => .error e
    | .ok adr =>
      match fetchMany fetch (prefixCount P + opcode.length + adr.size) (immBytes sh (operandSizeOf p P)) with
      | .error e => .error e
      | .ok imm =>
        let length := prefixCount P + opcode.length + adr.size + imm.length
        if p.maxInstrLength < length then .error (lift .tooLong)
        else .ok
          { prefixes := P, opcode := opcode, addressing := adr, imm := imm, operandSize := operandSizeOf p P,
            addressSize := addressSizeOf p P, length := length }

/-- The prefix loop of R97 with the set `P` recorded so far, then the rest. `fuel` bounds the loop: with five classes a sixth
prefix byte always repeats a class, so `decodeWhole`'s six rounds are never used up. -/
def decodeLoop {ε : Type} (lift : Reject → ε) (fetch : Nat → Except ε Byte) (p : Launch) :
    Nat → PrefixSet → Except ε Decoded
  | 0, _ => .error (lift .repeatedPrefixClass)
  | fuel + 1, P =>
    match fetch (prefixCount P) with
    | .error e => .error e
    | .ok b =>
      match prefixOfByte b with
      | none => decodeTail lift fetch p P b
      | some q =>
        if holdsClass P (prefixClass q) then .error (lift .repeatedPrefixClass)
        else decodeLoop lift fetch p fuel (recordByte P q)

/-- The decoder of R97: `fetch k` answers the instruction's byte at `a0 + k`. Total: a decoded instruction, a refusal, or what
the byte supply fails with. -/
def decodeWhole {ε : Type} (lift : Reject → ε) (fetch : Nat → Except ε Byte) (p : Launch) : Except ε Decoded :=
  decodeLoop lift fetch p 6 noPrefixes

/-- The byte of a list at an index, as a byte supply. -/
def fetchList (bytes : List Byte) (k : Nat) : Except ListReject Byte :=
  match bytes[k]? with
  | some b => .ok b
  | none => .error .bytesExhausted

/-- The decoder of R97 on a list of bytes. -/
def decodeBytes (p : Launch) (bytes : List Byte) : Except ListReject Decoded :=
  decodeWhole .reject (fetchList bytes) p

/-! ## Encoding -/

/-- The bytes of one row of the opcode table (column `match`). -/
def encode (i : Instr) : List Byte :=
  match prefixOfInstr i with
  | some q => [prefixValue q]
  | none => [0xF5]

/-- The bytes of a whole instruction in the field order of R70. -/
def encodeWhole (d : Decoded) : List Byte :=
  (prefixList d.prefixes).map prefixValue ++ d.opcode ++ d.addressing.modrm.toList ++ d.addressing.sib.toList
    ++ d.addressing.disp ++ d.imm

/-! ## The host's view of the decoder -/

/-- The `n` low bytes of a number, the least significant first. -/
def numberBytes (w : Nat) : Nat → List Byte
  | 0 => []
  | n + 1 => BitVec.ofNat 8 w :: numberBytes (w / 256) n

/-- The bytes of an instruction whose `nbits` bits are `w`, filled with zero bytes up to the longest instruction, 15 bytes
(R89's suggested value) after them. -/
def tableWordBytes (nbits w : Nat) : List Byte :=
  numberBytes (w % 2 ^ nbits) ((nbits + 7) / 8) ++ List.replicate 15 0

/-- The instruction the decoder reads from the bits `w` of an instruction. -/
def decodeTableWord (nbits w : Nat) : Option Instr :=
  match decode (tableWordBytes nbits w) with
  | .ok (i, _) => some i
  | .error _ => none

end Sys2Proof
end

