-- ==== Sys2Proof/Machine/Fetch.lean ====
section
/-! DEFINITION. Fetching: an instruction's bytes through CS and `Translate` (R56), the next row of the opcode table, and the
decoder of R97 at the current instruction. -/

namespace Sys2Proof.Machine

/-- `FetchByte` at the `k`-th byte of the instruction at `ip` (R56): its location and the byte. Refused across the top of the offset
space (R26) and for a byte stored in this run (R61). -/
def fetchByte (s : State) (k : Nat) : Except Stop (Nat × Byte) :=
  if 2 ^ 32 ≤ s.ip.toNat + k then .error (.refusal .fetchAcrossTop)
  else
    match translate s.launch.translate
        { source := .segment .cs, offset := s.ip.toNat + k, width := .byte, byte := 0, kind := .fetch } with
    | .fault e c => .error (raiseException s e c)
    | .location l =>
      if s.stored.contains l then .error (.refusal .fetchOfStored) else .ok (l, s.mem.read l)

/-- The instruction's byte at an index, as a byte supply for the decoder of R97. -/
def fetchAt (s : State) (k : Nat) : Except Stop Byte :=
  match fetchByte s k with
  | .error e => .error e
  | .ok (_, b) => .ok b

/-- A decoder's refusal as a stop of the machine. -/
def stopOfReject : Reject → Stop
  | .repeatedPrefixClass => .refusal .repeatedPrefixClass
  | .opcodeNotShown => .refusal .opcodeNotShown
  | .tooLong => .refusal .tooLong

/-- The decoder of R97 at `ip`. -/
def decodeAt (s : State) : Except Stop Decoded := decodeWhole stopOfReject (fetchAt s) s.launch

/-- Whether an instruction is a prefix row. -/
def isPrefix (i : Instr) : Bool := (prefixOfInstr i).isSome

/-- The next row of the opcode table at the byte after the prefixes recorded so far, and the state with that byte noted as
fetched. After an opcode byte the rest of R97 is done: a known shape, the bytes after it, the length limit; an opcode that the launch's
`OpcodeShape` shows but the table does not is refused (log 30). -/
def fetchInstr (s : State) : Except Stop (Instr × State) :=
  match fetchByte s (prefixCount s.prefixes) with
  | .error e => .error e
  | .ok (l, b) =>
    match decodeByte b with
    | .ok i =>
      if isPrefix i then .ok (i, s.noteFetched l)
      else
        match decodeTail stopOfReject (fetchAt s) s.launch s.prefixes b with
        | .error e => .error e
        | .ok _ => .ok (i, s.noteFetched l)
    | .error _ =>
      match decodeTail stopOfReject (fetchAt s) s.launch s.prefixes b with
      | .error e => .error e
      | .ok d => .error (.refusal (.noInstructionPage d.opcode))

/-- Whether the run has ended: `ip` equals `end_ip` (R239). -/
def State.final (s : State) : Bool := s.launch.endIp == some s.ip

/-- The memory with bytes placed where the instruction bytes from index `k` on are fetched from; a byte for which `Translate` faults
is not placed. -/
def placeFetchBytes (s : State) (k : Nat) : List Byte → State
  | [] => s
  | b :: bs =>
    match translate s.launch.translate
        { source := .segment .cs, offset := s.ip.toNat + k, width := .byte, byte := 0, kind := .fetch } with
    | .fault _ _ => placeFetchBytes s (k + 1) bs
    | .location l =>
      placeFetchBytes { s with mem := s.mem.write l b, stored := s.stored.filter (fun x => x != l) } (k + 1) bs

end Sys2Proof.Machine
end

