-- ==== Sys2Proof/Machine/Step.lean ====
section
/-! DEFINITION. One step: fetch the next row of the opcode table and run it. -/

namespace Sys2Proof.Machine

/-- One step. A run that has ended takes no step (R239). Else the byte after the prefixes recorded so far is fetched and decoded
(R97) and its row runs: a prefix row is recorded, CMC completes the instruction. -/
def step (s : State) : Host.Outcome State Fault Refusal :=
  if s.final then .refused .runEnded
  else
    match fetchInstr s with
    | .error e => e.outcome
    | .ok (i, t) => exec i t

/-- The state with the bits `w` of an instruction stored where `step` fetches its next row from, zero bytes after them, and the
run not at its end. It stands for the load of a program from outside (log 26). -/
def State.withFetchWord (s : State) (nbits w : Nat) : State :=
  let t := placeFetchBytes s (prefixCount s.prefixes) (tableWordBytes nbits w)
  if t.final then { t with launch := { t.launch with endIp := none } } else t

end Sys2Proof.Machine
end

