-- ==== Sys2Proof/Machine/Operands.lean ====
section
/-! DEFINITION. Addressing forms and operands (41_addressing_forms.md). The tables are written twice: row by row as Tables
17-2, 17-3 and 17-4 stand (R141 to R152), and as the complete functions of R156 and R157, which the operand operations use. -/

namespace Sys2Proof.Machine

/-! ## Segments -/

/-- The memory operand's segment: the override, else the default (R154). -/
def operandSegment (override : Option SegReg) (dflt : SegReg) : SegReg := override.getD dflt

/-! ## The complete functions (R156, R157) -/

/-- The sum of the registers of a 16-bit form (R156, `base`). -/
def base16 (s : State) (mod : BitVec 2) (rm : BitVec 3) : Word :=
  if rm = 0 then s.read16 .bx + s.read16 .si
  else if rm = 1 then s.read16 .bx + s.read16 .di
  else if rm = 2 then s.read16 .bp + s.read16 .si
  else if rm = 3 then s.read16 .bp + s.read16 .di
  else if rm = 4 then s.read16 .si
  else if rm = 5 then s.read16 .di
  else if rm = 6 then (if mod = 0 then 0 else s.read16 .bp)
  else s.read16 .bx

/-- Whether a 16-bit form contains BP (R145, R156). -/
def usesBP (mod : BitVec 2) (rm : BitVec 3) : Bool :=
  decide (rm = 2 ∨ rm = 3 ∨ (rm = 6 ∧ mod ≠ 0))

/-- `Operand16(m, D)` (R156): every sum modulo 2^16 (R155). -/
def operand16 (s : State) (override : Option SegReg) (m : Byte) (D : Word) : Operand :=
  let mod := modField m
  let rm := rmField m
  if mod = 3 then .reg rm
  else
    let disp := if mod = 0 ∧ rm ≠ 6 then 0 else D
    let ea := base16 s mod rm + disp
    .mem (operandSegment override (if usesBP mod rm then .ss else .ds)) (ea.zeroExtend 32)

/-- The scaled index `X` of R149: 0 for Index = 100, where the scale is ignored. -/
def scaledIndex (s : State) (sib : Byte) : DWord :=
  if indexField sib = 4 then 0 else s.read32 (reg32 (indexField sib)) <<< (scaleField sib).toNat

/-- `Operand32(m, s, D)` (R157): every sum modulo 2^32 (R155); `sib` is the SIB byte where one is present. -/
def operand32 (s : State) (override : Option SegReg) (m : Byte) (sib : Byte) (D : DWord) : Operand :=
  let mod := modField m
  let rm := rmField m
  if mod = 3 then .reg rm
  else if rm ≠ 4 then
    if mod = 0 ∧ rm = 5 then .mem (operandSegment override .ds) D
    else
      let disp := if mod = 0 then 0 else D
      .mem (operandSegment override (if rm = 5 then .ss else .ds)) (s.read32 (reg32 rm) + disp)
  else
    let base := baseField sib
    if base = 5 ∧ mod = 0 then .mem (operandSegment override .ds) (scaledIndex s sib + D)
    else
      let disp := if mod = 0 then 0 else D
      .mem (operandSegment override (if base = 4 ∨ base = 5 then .ss else .ds))
        (s.read32 (reg32 base) + scaledIndex s sib + disp)

/-! ## The tables row by row -/

/-- A row of Table 17-2 or 17-3: a register operand, a memory form (its base register, its index register and whether a
displacement is part of it), or the rows marked `[--] [--]`, after which a SIB byte follows. -/
inductive FormRow (β : Type) where
  | register
  | memory (base : Option β) (index : Option β) (disp : Nat)
  | sib (disp : Nat)
deriving DecidableEq, Repr

/-- Table 17-2 by Mod and R/M (R80, R141 to R144); the displacement is counted in bytes. -/
def table172 (mod : BitVec 2) (rm : BitVec 3) : FormRow Reg16 :=
  match mod.toNat, rm.toNat with
  | 0, 0 => .memory (some .bx) (some .si) 0
  | 0, 1 => .memory (some .bx) (some .di) 0
  | 0, 2 => .memory (some .bp) (some .si) 0
  | 0, 3 => .memory (some .bp) (some .di) 0
  | 0, 4 => .memory none (some .si) 0
  | 0, 5 => .memory none (some .di) 0
  | 0, 6 => .memory none none 2
  | 0, _ => .memory (some .bx) none 0
  | 1, 0 => .memory (some .bx) (some .si) 1
  | 1, 1 => .memory (some .bx) (some .di) 1
  | 1, 2 => .memory (some .bp) (some .si) 1
  | 1, 3 => .memory (some .bp) (some .di) 1
  | 1, 4 => .memory none (some .si) 1
  | 1, 5 => .memory none (some .di) 1
  | 1, 6 => .memory (some .bp) none 1
  | 1, _ => .memory (some .bx) none 1
  | 2, 0 => .memory (some .bx) (some .si) 2
  | 2, 1 => .memory (some .bx) (some .di) 2
  | 2, 2 => .memory (some .bp) (some .si) 2
  | 2, 3 => .memory (some .bp) (some .di) 2
  | 2, 4 => .memory none (some .si) 2
  | 2, 5 => .memory none (some .di) 2
  | 2, 6 => .memory (some .bp) none 2
  | 2, _ => .memory (some .bx) none 2
  | _, _ => .register

/-- Table 17-3 by Mod and R/M (R81, R146 to R148, R144); the displacement is counted in bytes. -/
def table173 (mod : BitVec 2) (rm : BitVec 3) : FormRow Reg32 :=
  match mod.toNat, rm.toNat with
  | 0, 0 => .memory (some .eax) none 0
  | 0, 1 => .memory (some .ecx) none 0
  | 0, 2 => .memory (some .edx) none 0
  | 0, 3 => .memory (some .ebx) none 0
  | 0, 4 => .sib 0
  | 0, 5 => .memory none none 4
  | 0, 6 => .memory (some .esi) none 0
  | 0, _ => .memory (some .edi) none 0
  | 1, 0 => .memory (some .eax) none 1
  | 1, 1 => .memory (some .ecx) none 1
  | 1, 2 => .memory (some .edx) none 1
  | 1, 3 => .memory (some .ebx) none 1
  | 1, 4 => .sib 1
  | 1, 5 => .memory (some .ebp) none 1
  | 1, 6 => .memory (some .esi) none 1
  | 1, _ => .memory (some .edi) none 1
  | 2, 0 => .memory (some .eax) none 4
  | 2, 1 => .memory (some .ecx) none 4
  | 2, 2 => .memory (some .edx) none 4
  | 2, 3 => .memory (some .ebx) none 4
  | 2, 4 => .sib 4
  | 2, 5 => .memory (some .ebp) none 4
  | 2, 6 => .memory (some .esi) none 4
  | 2, _ => .memory (some .edi) none 4
  | _, _ => .register

/-- The scaled-index rows of Table 17-4 by SS and Index (R83, R149): the index register and its factor, or `none`. -/
def table174Index (ss : BitVec 2) (index : BitVec 3) : Option (Reg32 × Nat) :=
  let factor := match ss.toNat with
    | 0 => 1
    | 1 => 2
    | 2 => 4
    | _ => 8
  match index.toNat with
  | 0 => some (.eax, factor)
  | 1 => some (.ecx, factor)
  | 2 => some (.edx, factor)
  | 3 => some (.ebx, factor)
  | 4 => none
  | 5 => some (.ebp, factor)
  | 6 => some (.esi, factor)
  | _ => some (.edi, factor)

/-- The base columns of Table 17-4 by Mod and Base (R83, R150, R151): the base register, or `none` for the column `[*]` under
Mod = 00, where a disp32 stands in its place. -/
def table174Base (mod : BitVec 2) (base : BitVec 3) : Option Reg32 :=
  match base.toNat with
  | 0 => some .eax
  | 1 => some .ecx
  | 2 => some .edx
  | 3 => some .ebx
  | 4 => some .esp
  | 5 => if mod = 0 then none else some .ebp
  | 6 => some .esi
  | _ => some .edi

/-- The default segment of a 16-bit form: SS where it contains BP, DS else (R145). -/
def defaultSegment16 (base index : Option Reg16) : SegReg :=
  if base = some .bp ∨ index = some .bp then .ss else .ds

/-- The default segment of a 32-bit form: SS where its base register is EBP or ESP, DS else (R153; log 13). -/
def defaultSegment32 (base : Option Reg32) : SegReg :=
  if base = some .ebp ∨ base = some .esp then .ss else .ds

/-- A 16-bit register as an address component, 0 where the form has none. -/
def component16 (s : State) (r : Option Reg16) : Word := (r.map s.read16).getD 0

/-- A 32-bit register as an address component, 0 where the form has none. -/
def component32 (s : State) (r : Option Reg32) : DWord := (r.map s.read32).getD 0

/-- A scaled index as an address component: the register times its factor, low 32 bits kept (R149). -/
def componentScaled (s : State) (x : Option (Reg32 × Nat)) : DWord :=
  match x with
  | none => 0
  | some (r, n) => s.read32 r * BitVec.ofNat 32 n

/-- The operand of a row of Table 17-2 (R141 to R145, R154). -/
def operandByTable172 (s : State) (override : Option SegReg) (m : Byte) (D : Word) : Operand :=
  match table172 (modField m) (rmField m) with
  | .memory base index disp =>
    .mem (operandSegment override (defaultSegment16 base index))
      ((component16 s base + component16 s index + (if disp = 0 then 0 else D)).zeroExtend 32)
  | _ => .reg (rmField m)

/-- The operand of a row of Table 17-3, with Table 17-4 for its rows `[--] [--]` (R146 to R154). -/
def operandByTable173 (s : State) (override : Option SegReg) (m : Byte) (sib : Byte) (D : DWord) : Operand :=
  match table173 (modField m) (rmField m) with
  | .register => .reg (rmField m)
  | .memory base _ disp =>
    .mem (operandSegment override (defaultSegment32 base)) (component32 s base + (if disp = 0 then 0 else D))
  | .sib disp =>
    let base := table174Base (modField m) (baseField sib)
    let disp := if base = none then 4 else disp
    .mem (operandSegment override (defaultSegment32 base))
      (component32 s base + componentScaled s (table174Index (scaleField sib) (indexField sib)) + (if disp = 0 then 0 else D))

/-! ## The operands of a decoded instruction -/

/-- The operand the ModR/M byte of a decoded instruction names, where it has one (R140): Table 17-2 for address size 16, Tables 17-3
and 17-4 for 32. Registers are read in the state given, before the instruction writes anything (R158). -/
def operandOf (s : State) (d : Decoded) : Option Operand :=
  match d.addressing.modrm with
  | none => none
  | some m =>
    match d.addressSize with
    | .s16 => some (operand16 s d.prefixes.segment m (dispValue16 d.addressing.disp))
    | .s32 => some (operand32 s d.prefixes.segment m (d.addressing.sib.getD 0) (dispValue32 d.addressing.disp))

/-- The value of the immediate of a decoded instruction, where it has one: the unsigned number of its bytes, little-endian (R87, R51;
log 15). How an instruction extends it is not in the spec. -/
def immediateOf (d : Decoded) : Option Nat :=
  match d.imm with
  | [] => none
  | bytes => some (littleEndian bytes)

/-- A register operand of a width, zero-extended (R144, R79). -/
def readRegister (s : State) (code : BitVec 3) : AccessWidth → DWord
  | .byte => (s.read8 (reg8 code)).zeroExtend 32
  | .word => (s.read16 (reg16 code)).zeroExtend 32
  | .dword => s.read32 (reg32 code)

/-- A register operand of a width written with the low bits of a value (R144, R79). -/
def writeRegister (s : State) (code : BitVec 3) (width : AccessWidth) (v : DWord) : State :=
  match width with
  | .byte => s.write8 (reg8 code) (v.extractLsb' 0 8)
  | .word => s.write16 (reg16 code) (v.extractLsb' 0 16)
  | .dword => s.write32 (reg32 code) v

/-- The width of an instruction's operand: a byte, or the operand size (R79, R144). -/
def operandWidth (sh : Shape) (size : Size) : AccessWidth :=
  if sh.byteOperand then .byte else sizeWidth size

/-- The width of the register the REG field names, where it names one (R79). -/
def regFieldWidth (sh : Shape) (size : Size) : Option AccessWidth :=
  match sh.regField with
  | .register isByte => some (if isByte then .byte else sizeWidth size)
  | _ => none

/-- The register operand `/r` of a decoded instruction and its width, where the shape says that REG names a register (R79 (a)): the
register whose code is REG, of the 8-, 16- or 32-bit names by the width. `readOperand` and `writeOperand` reach it. -/
def regOperandOf (sh : Shape) (d : Decoded) : Option (Operand × AccessWidth) :=
  match d.addressing.modrm, regFieldWidth sh d.operandSize with
  | some m, some width => some (.reg (regField m), width)
  | _, _ => none

/-- The REG field of a decoded instruction as a digit of its opcode, where the shape says so (R79 (b)). -/
def opcodeDigit (sh : Shape) (d : Decoded) : Option (BitVec 3) :=
  match sh.regField with
  | .digit => d.addressing.modrm.map regField
  | _ => none

/-- The value of an operand. -/
def readOperand (s : State) (o : Operand) (width : AccessWidth) : Except Stop DWord :=
  match o with
  | .reg code => .ok (readRegister s code width)
  | .mem seg ea => memRead s (.segment seg) ea.toNat width

/-- The state with an operand written. -/
def writeOperand (s : State) (o : Operand) (width : AccessWidth) (v : DWord) : Except Stop State :=
  match o with
  | .reg code => .ok (writeRegister s code width v)
  | .mem seg ea => memWrite s (.segment seg) ea.toNat width v

end Sys2Proof.Machine
end

