-- ==== Sys2Proof/Machine/Functions.lean ====
section
/-! DEFINITION. The functions of the "Operation" paragraphs (43_operation_functions.md): operand size by form, Push, Pop, BIT, DIV,
MOD, I-O-Permission, SHR and SHL. No instruction of the table calls them (R189). -/

namespace Sys2Proof.Machine

/-- The operand size of a form of CMPS (R180): 16 for CMPSW, 32 for CMPSD, the attribute of R95 for the other. -/
def cmpsOperandSize (form : CmpsForm) (general : Size) : Size :=
  match form with
  | .cmpsw => .s16
  | .cmpsd => .s32
  | .cmps => general

/-! ## The stack (R181, R182) -/

/-- The offset the stack pointer holds: SP zero-extended for `StackAddrSize` 16, ESP for 32. -/
def stackOffset (s : State) : Nat :=
  match s.launch.stackAddrSize with
  | .s16 => (s.read16 .sp).toNat
  | .s32 => (s.read32 .esp).toNat

/-- The stack pointer moved up by `n` at the width of `StackAddrSize`; with 16, bits 31 to 16 of ESP keep their value. -/
def stackUp (s : State) (n : Nat) : State :=
  match s.launch.stackAddrSize with
  | .s16 => s.write16 .sp (s.read16 .sp + BitVec.ofNat 16 n)
  | .s32 => s.write32 .esp (s.read32 .esp + BitVec.ofNat 32 n)

/-- The stack pointer moved down by `n` at the width of `StackAddrSize`. -/
def stackDown (s : State) (n : Nat) : State :=
  match s.launch.stackAddrSize with
  | .s16 => s.write16 .sp (s.read16 .sp - BitVec.ofNat 16 n)
  | .s32 => s.write32 .esp (s.read32 .esp - BitVec.ofNat 32 n)

/-- `Push(value)` (R181): the stack pointer is moved down first, then the low `OperandSize` bits of the value are stored at it. -/
def push (s : State) (size : Size) (value : DWord) : Except Stop State :=
  let t := stackDown s (sizeBytes size)
  memWrite t (.segment .ss) (stackOffset t) (sizeWidth size) value

/-- `Pop()` (R182): the value is read at the stack pointer first, then the pointer is moved up. The value is zero-extended. -/
def pop (s : State) (size : Size) : Except Stop (DWord × State) :=
  match memRead s (.segment .ss) (stackOffset s) (sizeWidth size) with
  | .error e => .error e
  | .ok v => .ok (v, stackUp s (sizeBytes size))

/-! ## DIV, MOD, SHR, SHL (R185, R187) -/

/-- `DIV`: division with rounding towards negative infinity (R185). -/
def floorDiv (a b : Int) : Int := Int.fdiv a b

/-- `MOD`: `a - b * floorDiv a b` (R185). -/
def posMod (a b : Int) : Int := a - b * floorDiv a b

/-- `SHR(x, n) = floor(x / 2^n)` (R187). -/
def shr (x n : Nat) : Nat := x / 2 ^ n

/-- `SHL(x, n) = x * 2^n`, no bit dropped (R187). -/
def shl (x n : Nat) : Nat := x * 2 ^ n

/-! ## BIT (R183, R184) -/

/-- The location `BIT[BitBase, BitOffset]` denotes: a bit of a 32-bit register (offset 0 to 31), a bit of a 16-bit register (0 to
15), or a bit of a byte in a segment (R183, R184). The spec leaves open whether an 8-bit register can be the base: R183 names
32- and 16-bit ones only, and an 8-bit base has no location here (DESIGN CHOICE, log 22). -/
inductive BitLocation where
  | reg32 (r : Reg32) (k : Fin 32)
  | reg16 (r : Reg16) (k : Fin 16)
  | mem (seg : SegReg) (offset : DWord) (k : Fin 8)
deriving DecidableEq, Repr

/-- The bit number within its byte: `BitOffset MOD 8` (R184). -/
def bitNumber (bitOffset : DWord) : Fin 8 := Fin.ofNat 8 (posMod bitOffset.toInt 8).toNat

/-- The offset of the byte a bit offset addresses: `EA + BitOffset DIV 8`, the sum at the address size (R184, R155). -/
def bitByteOffset (size : Size) (ea bitOffset : DWord) : DWord :=
  match size with
  | .s16 => (ea.extractLsb' 0 16 + BitVec.ofInt 16 (floorDiv bitOffset.toInt 8)).zeroExtend 32
  | .s32 => ea + BitVec.ofInt 32 (floorDiv bitOffset.toInt 8)

/-- `BIT[BitBase, BitOffset]` with a memory base: `bitOffset` is a signed 32-bit number (R184). -/
def bitInMemory (size : Size) (seg : SegReg) (ea bitOffset : DWord) : BitLocation :=
  .mem seg (bitByteOffset size ea bitOffset) (bitNumber bitOffset)

/-- A byte with one bit replaced. -/
def setBit (b : Byte) (k : Fin 8) (v : Bool) : Byte :=
  if v then b ||| BitVec.twoPow 8 k.val else b &&& ~~~(BitVec.twoPow 8 k.val)

/-- The bit at a location (R183, R184). -/
def readBit (s : State) : BitLocation → Except Stop Bool
  | .reg32 r k => .ok ((s.read32 r).getLsbD k.val)
  | .reg16 r k => .ok ((s.read16 r).getLsbD k.val)
  | .mem seg offset k =>
    match memRead s (.segment seg) offset.toNat .byte with
    | .error e => .error e
    | .ok b => .ok (b.getLsbD k.val)

/-- A 32-bit value with one bit replaced. -/
def setBit32 (d : DWord) (k : Fin 32) (v : Bool) : DWord :=
  if v then d ||| BitVec.twoPow 32 k.val else d &&& ~~~(BitVec.twoPow 32 k.val)

/-- A 16-bit value with one bit replaced. -/
def setBit16 (w : Word) (k : Fin 16) (v : Bool) : Word :=
  if v then w ||| BitVec.twoPow 16 k.val else w &&& ~~~(BitVec.twoPow 16 k.val)

/-- The state with the bit at a location assigned: in memory, the one byte is written back with the one bit changed (R184). -/
def assignBit (s : State) (loc : BitLocation) (v : Bool) : Except Stop State :=
  match loc with
  | .reg32 r k => .ok (s.write32 r (setBit32 (s.read32 r) k v))
  | .reg16 r k => .ok (s.write16 r (setBit16 (s.read16 r) k v))
  | .mem seg offset k =>
    match memRead s (.segment seg) offset.toNat .byte with
    | .error e => .error e
    | .ok b => memWrite s (.segment seg) offset.toNat .byte ((setBit (b.extractLsb' 0 8) k v).zeroExtend 32)

/-! ## I-O-Permission (R186) -/

/-- `ReadTSS(off, 2)`: two bytes at an offset from the TSS, a system read with no segment register (R186). -/
def readTSS (s : State) (offset : Nat) : Except Stop Nat :=
  match memRead s .system (s.launch.tss + offset) .word with
  | .error e => .error e
  | .ok v => .ok v.toNat

/-- `nBitMask` of an access width: as many one bits as ports (R186). -/
def portMask : AccessWidth → Nat
  | .byte => 1
  | .word => 3
  | .dword => 15

/-- `I-O-Permission(I-O-Address, width)` (R186). -/
def ioPermission (s : State) (port : Nat) (width : AccessWidth) : Except Stop Bool :=
  match s.launch.tssType with
  | .tss286 => .ok false
  | .tss386 =>
    match readTSS s s.launch.ioMapPtrOffset with
    | .error e => .error e
    | .ok ptr =>
      match readTSS s (shr port 3 + ptr) with
      | .error e => .error e
      | .ok word => .ok (word &&& shl (portMask width) (port &&& 7) == 0)

end Sys2Proof.Machine
end

