-- ==== Sys2Proof/Safety.lean ====
section
/-! DEFINITION. What counts as a safe state and a safe run, in the words the statements use. -/

namespace Sys2Proof

open Sys2Proof.Machine

/-- The invariant of the machine: memory and both location sets are in canonical form, and no location has been both fetched and stored
to (R61). -/
def Machine.State.inv (s : State) : Prop :=
  s.mem.wf = true ∧ s.fetched.wf = true ∧ s.stored.wf = true
    ∧ ∀ l, l ∈ s.fetched → l ∉ s.stored

/-- Two states agree in all but the recorded prefixes and the note of fetched locations. -/
def Machine.State.sameButProgress (s t : State) : Prop :=
  t.regs = s.regs ∧ t.segs = s.segs ∧ t.ip = s.ip ∧ t.cf = s.cf ∧ t.mem = s.mem ∧ t.stored = s.stored ∧ t.launch = s.launch

/-- The state with another operating mode. -/
def Machine.State.withMode (s : State) (m : Mode) : State := { s with launch := { s.launch with mode := m } }

/-- The state with other general and segment registers. -/
def Machine.State.withRegisters (s : State) (g : Regs) (sg : SegRegs) : State := { s with regs := g, segs := sg }

/-- An outcome with its next state, where it has one, changed. -/
def mapNext (f : State → State) : Host.Outcome State Fault Refusal → Host.Outcome State Fault Refusal
  | .next s => .next (f s)
  | .fault r => .fault r
  | .refused r => .refused r

/-- A run of at most `n` steps from `s` that ends in the final state `t` without a fault or a refusal on the way (R239). -/
def endsIn (s : State) (n : Nat) (t : State) : Prop :=
  ∃ k, k ≤ n ∧ core.run k s = .next t ∧ t.final = true

end Sys2Proof
end

