-- ==== Sys2Proof/Certificates/Slice0/Obligations.lean ====
section
/-! DEFINITION. The statements for the provers. OBLIGATIONS.json lists them with the rules of spec/ they formalise. -/

open Sys2Proof Sys2Proof.Machine

/-! ## The instructions -/

/-- R170: what CMC is encoded as, what it does with no prefix before it, what it does after one, that a fault of its fetch is the
step's outcome, and that twice restores CF. The whole next state is given, so nothing else changes. -/
def Obligations.CmcComplementsTheCarryFlag : Prop :=
  encode .cmc = [0xF5] ∧ decodeByte 0xF5 = .ok .cmc
    ∧ (∀ s : State, s.prefixes = noPrefixes → exec .cmc s = .next { s with cf := !s.cf, ip := s.ip + 1 })
    ∧ (∀ s : State, s.prefixes ≠ noPrefixes → exec .cmc s = .refused .prefixOnCMC)
    ∧ (∀ (s : State) (e : Stop), s.final = false → fetchByte s (prefixCount s.prefixes) = .error e → step s = e.outcome)
    ∧ (∀ s t u : State, exec .cmc s = .next t → exec .cmc t = .next u → u = { s with ip := s.ip + 2 })

/-- R132: CMC is refused with `PrefixOnCMC` exactly where the prefix set is not empty, and so after each of the prefix rows, which
the model runs as steps of their own (log 1, the model's choice). -/
def Obligations.PrefixBeforeCmcIsRefused : Prop :=
  (∀ s : State, exec .cmc s = .refused .prefixOnCMC ↔ s.prefixes ≠ noPrefixes)
    ∧ ∀ (i : Instr) (s t : State), i ≠ .cmc → exec i s = .next t → exec .cmc t = .refused .prefixOnCMC

/-- The frame of CMC (R170): no general or segment register, no byte of memory, no launch parameter and no note of the run
changes, and only CF of the flags (VM is as before). -/
def Obligations.CmcFrame : Prop :=
  ∀ s t : State, exec .cmc s = .next t →
    (∀ r, t.read32 r = s.read32 r) ∧ (∀ r, t.selector r = s.selector r) ∧ (∀ a, t.mem.read a = s.mem.read a)
      ∧ t.launch = s.launch ∧ t.vm = s.vm ∧ t.fetched = s.fetched ∧ t.stored = s.stored ∧ t.prefixes = noPrefixes

/-- R120, R121, R122: REP, REPE/REPZ and REPNE/REPNZ record their byte where none of {F2, F3} is recorded, and nothing else changes;
CMC, the one instruction in scope, is then refused. REP and REPE/REPZ are the same byte. -/
def Obligations.RepeatPrefixesAreRecorded : Prop :=
  encode .rep = [0xF3] ∧ encode .repe = [0xF3] ∧ encode .repne = [0xF2] ∧ (∀ s : State, exec .repe s = exec .rep s)
    ∧ ∀ s : State, s.prefixes.repeating = none →
        exec .rep s = .next { s with prefixes := { s.prefixes with repeating := some .f3 } }
        ∧ exec .repe s = .next { s with prefixes := { s.prefixes with repeating := some .f3 } }
        ∧ exec .repne s = .next { s with prefixes := { s.prefixes with repeating := some .f2 } }
        ∧ (∀ t : State, exec .rep s = .next t ∨ exec .repe s = .next t ∨ exec .repne s = .next t →
            exec .cmc t = .refused .prefixOnCMC)

/-- R123: LOCK records its byte where it is not recorded, and nothing else changes; CMC is then refused, not #UD raised. -/
def Obligations.LockIsRecorded : Prop :=
  encode .lock = [0xF0]
    ∧ ∀ s : State, s.prefixes.lock = false →
        exec .lock s = .next { s with prefixes := { s.prefixes with lock := true } }
        ∧ (∀ t : State, exec .lock s = .next t → exec .cmc t = .refused .prefixOnCMC)

/-- R124 to R129: each segment override records its segment register where none is recorded, nothing else changes, and the memory
operand's segment is then that register whatever the default. -/
def Obligations.SegmentOverridesAreRecorded : Prop :=
  encode .csOverride = [0x2E] ∧ encode .ssOverride = [0x36] ∧ encode .dsOverride = [0x3E] ∧ encode .esOverride = [0x26]
    ∧ encode .fsOverride = [0x64] ∧ encode .gsOverride = [0x65]
    ∧ (∀ s : State, s.prefixes.segment = none →
        exec .csOverride s = .next { s with prefixes := { s.prefixes with segment := some .cs } }
        ∧ exec .ssOverride s = .next { s with prefixes := { s.prefixes with segment := some .ss } }
        ∧ exec .dsOverride s = .next { s with prefixes := { s.prefixes with segment := some .ds } }
        ∧ exec .esOverride s = .next { s with prefixes := { s.prefixes with segment := some .es } }
        ∧ exec .fsOverride s = .next { s with prefixes := { s.prefixes with segment := some .fs } }
        ∧ exec .gsOverride s = .next { s with prefixes := { s.prefixes with segment := some .gs } })
    ∧ (∀ (P : PrefixSet) (r d : SegReg), P.segment = some r → operandSegment P.segment d = r)

/-- R130, R131 (with R95): the size overrides record their byte where it is not recorded, nothing else changes, and the attribute of the
instruction is then the other one of 16 and 32. -/
def Obligations.SizeOverridesAreRecorded : Prop :=
  encode .operandSizeOverride = [0x66] ∧ encode .addressSizeOverride = [0x67]
    ∧ (∀ s : State, s.prefixes.operandSize = false →
        ∃ t, exec .operandSizeOverride s = .next t
          ∧ t = { s with prefixes := { s.prefixes with operandSize := true } }
          ∧ operandSizeOf t.launch t.prefixes ≠ operandSizeOf s.launch s.prefixes
          ∧ addressSizeOf t.launch t.prefixes = addressSizeOf s.launch s.prefixes)
    ∧ (∀ s : State, s.prefixes.addressSize = false →
        ∃ t, exec .addressSizeOverride s = .next t
          ∧ t = { s with prefixes := { s.prefixes with addressSize := true } }
          ∧ addressSizeOf t.launch t.prefixes ≠ addressSizeOf s.launch s.prefixes
          ∧ operandSizeOf t.launch t.prefixes = operandSizeOf s.launch s.prefixes)

/-- The frame of the twelve prefix rows: registers, flags, every byte of memory, `ip` and the launch parameters stay; only the
prefix set changes, and it holds one byte more. -/
def Obligations.PrefixRowsFrame : Prop :=
  ∀ (i : Instr) (s t : State), i ≠ .cmc → exec i s = .next t →
    (∀ r, t.read32 r = s.read32 r) ∧ (∀ r, t.selector r = s.selector r) ∧ (∀ a, t.mem.read a = s.mem.read a)
      ∧ t.cf = s.cf ∧ t.vm = s.vm ∧ t.ip = s.ip ∧ t.launch = s.launch ∧ t.fetched = s.fetched ∧ t.stored = s.stored
      ∧ prefixCount t.prefixes = prefixCount s.prefixes + 1

/-- R74 at the machine: a prefix row whose class already has a byte, the same byte or another, is refused. -/
def Obligations.SecondPrefixOfAClassIsRefused : Prop :=
  ∀ (i : Instr) (q : PrefixByte) (s : State), prefixOfInstr i = some q → holdsClass s.prefixes (prefixClass q) = true →
    exec i s = .refused .repeatedPrefixClass

/-! ## Encoding and decoding -/

/-- R71, R72, R73: the twelve prefix names and their byte values; exactly eleven byte values are prefixes. -/
def Obligations.PrefixCodes : Prop :=
  ([.rep, .repe, .repne, .lock, .csOverride, .ssOverride, .dsOverride, .esOverride, .fsOverride, .gsOverride,
      .operandSizeOverride, .addressSizeOverride] : List Instr).map encode
    = [[0xF3], [0xF3], [0xF2], [0xF0], [0x2E], [0x36], [0x3E], [0x26], [0x64], [0x65], [0x66], [0x67]]
    ∧ ∀ b : Byte, (prefixOfByte b).isSome = true ↔
        b ∈ ([0xF0, 0xF2, 0xF3, 0x26, 0x2E, 0x36, 0x3E, 0x64, 0x65, 0x66, 0x67] : List Byte)

/-- Decode and encode agree on every row of the opcode table, whatever bytes follow: REPE/REPZ, the second name of F3, is read as
REP (log 2, the model's choice). -/
def Obligations.RowsDecodeBack : Prop :=
  (∀ (i : Instr) (rest : List Byte), i.wellFormed = true → decode (encode i ++ rest) = .ok (i, rest))
    ∧ (∀ rest : List Byte, decode (encode .repe ++ rest) = .ok (.rep, rest))

/-- R74 at the decoder of R97: two prefix bytes of one class are refused wherever they stand among the prefixes, and prefixes of
different classes may stand in any order. -/
def Obligations.PrefixOrderIsFreeAndRepetitionRefused : Prop :=
  (∀ (p : Launch) (qs : List PrefixByte) (rest : List Byte), ¬ (qs.map prefixClass).Nodup →
      decodeBytes p (qs.map prefixValue ++ rest) = .error (.reject .repeatedPrefixClass))
    ∧ (∀ (p : Launch) (qs qs' : List PrefixByte) (rest : List Byte), (qs.map prefixClass).Nodup → qs.Perm qs' →
      decodeBytes p (qs'.map prefixValue ++ rest) = decodeBytes p (qs.map prefixValue ++ rest))

/-- Decode and encode agree on whole instructions: every well-formed instruction, with every prefix set, opcode shape, ModR/M and SIB
byte, displacement and immediate, decodes back from its bytes, whatever bytes follow. -/
def Obligations.WholeInstructionsDecodeBack : Prop :=
  ∀ (p : Launch) (d : Decoded) (rest : List Byte), d.wellFormed p = true → decodeBytes p (encodeWhole d ++ rest) = .ok d

/-- What the decoder of R97 answers is well-formed, and its fields are the instruction's bytes in the order of R70, prefixes in
the order in which they stood. -/
def Obligations.DecodedFieldsAreTheBytes : Prop :=
  ∀ (p : Launch) (bytes : List Byte) (d : Decoded), decodeBytes p bytes = .ok d →
    d.wellFormed p = true ∧ d.length ≤ bytes.length
      ∧ ∃ qs : List PrefixByte, qs.Perm (prefixList d.prefixes)
          ∧ bytes.take d.length = qs.map prefixValue ++ d.opcode ++ d.addressing.modrm.toList ++ d.addressing.sib.toList
              ++ d.addressing.disp ++ d.imm

/-- R88: the length of a decoded instruction is the sum of the sizes of the fields present, at most `MaxInstrLength`. -/
def Obligations.LengthIsTheSumOfTheFields : Prop :=
  ∀ (p : Launch) (bytes : List Byte) (d : Decoded), decodeBytes p bytes = .ok d →
    d.length = prefixCount d.prefixes + d.opcode.length + (if d.addressing.modrm.isSome then 1 else 0)
        + (if d.addressing.sib.isSome then 1 else 0) + d.addressing.disp.length + d.imm.length
      ∧ (d.addressing.disp.length = 0 ∨ d.addressing.disp.length = 1 ∨ d.addressing.disp.length = 2
          ∨ d.addressing.disp.length = 4)
      ∧ d.length ≤ p.maxInstrLength

/-- Words written out from the spec: F5, the prefix bytes, and the two readings of R98's bytes under a shape with a ModR/M byte. -/
def Obligations.WordsOfTheSpecDecode : Prop :=
  decode [0xF5] = .ok (.cmc, []) ∧ decode [0xF0, 0xF5] = .ok (.lock, [0xF5]) ∧ decode [0x65] = .ok (.gsOverride, [])
    ∧ decode [0x90] = .error (.reject .opcodeNotShown)
    ∧ decodeBytes
        { Launch.reset with defaultAddressSize := .s32, opcodeShape := [(0x01, .oneByte { cmcShape with hasModRM := true })] }
        [0x01, 0x44, 0x8D, 0x10]
      = .ok { prefixes := noPrefixes, opcode := [0x01],
              addressing := { modrm := some 0x44, sib := some 0x8D, disp := [0x10] }, imm := [], operandSize := .s16,
              addressSize := .s32, length := 4 }
    ∧ decodeBytes { Launch.reset with opcodeShape := [(0x01, .oneByte { cmcShape with hasModRM := true })] }
        [0x01, 0x44, 0x8D, 0x10]
      = .ok { prefixes := noPrefixes, opcode := [0x01],
              addressing := { modrm := some 0x44, sib := none, disp := [0x8D] }, imm := [], operandSize := .s16,
              addressSize := .s16, length := 3 }

/-- R78: the layout of the ModR/M byte, both ways. -/
def Obligations.ModRMByteLayout : Prop :=
  (∀ m : Byte, m.toNat = (modField m).toNat * 64 + (regField m).toNat * 8 + (rmField m).toNat)
    ∧ ∀ (a : BitVec 2) (b c : BitVec 3), modField (joinFields a b c) = a ∧ regField (joinFields a b c) = b
        ∧ rmField (joinFields a b c) = c

/-- R82: the layout of the SIB byte, both ways. -/
def Obligations.SibByteLayout : Prop :=
  (∀ s : Byte, s.toNat = (scaleField s).toNat * 64 + (indexField s).toNat * 8 + (baseField s).toNat)
    ∧ ∀ (a : BitVec 2) (b c : BitVec 3), scaleField (joinFields a b c) = a ∧ indexField (joinFields a b c) = b
        ∧ baseField (joinFields a b c) = c

/-- R77: a SIB byte follows for address size 32 and exactly the 24 ModR/M values the rule lists. -/
def Obligations.SibFollowsExactlyTheListedValues : Prop :=
  ∀ (size : Size) (m : Byte), hasSIB size m = true ↔
    size = .s32 ∧ m ∈ ([0x04, 0x0C, 0x14, 0x1C, 0x24, 0x2C, 0x34, 0x3C, 0x44, 0x4C, 0x54, 0x5C, 0x64, 0x6C, 0x74, 0x7C,
      0x84, 0x8C, 0x94, 0x9C, 0xA4, 0xAC, 0xB4, 0xBC] : List Byte)

/-- R84, R85: the displacement sizes by Mod, R/M and, where a SIB byte is present, its Base field. -/
def Obligations.DisplacementSizes : Prop :=
  (∀ (m : Byte) (s : Option Byte), dispBytes .s16 m s =
      if modField m = 0 then (if rmField m = 6 then 2 else 0) else if modField m = 1 then 1
      else if modField m = 2 then 2 else 0)
    ∧ (∀ (m : Byte) (s : Option Byte), dispBytes .s32 m s =
      if modField m = 0 then
        (if rmField m = 5 then 4 else if rmField m = 4 then (if s.map baseField = some 5 then 4 else 0) else 0)
      else if modField m = 1 then 1 else if modField m = 2 then 4 else 0)

/-- R86, R87, with the byte order of R51 (the spec's decision D4, log 15): a disp8 is sign-extended to the address size, a disp16, a
disp32 and an immediate are the numbers their bytes stand for, the first byte least significant; no displacement counts as 0,
and an instruction without immediate bytes has no immediate. -/
def Obligations.DisplacementAndImmediateValues : Prop :=
  dispValue16 [] = 0 ∧ dispValue32 [] = 0
    ∧ (∀ d0 : Byte, (dispValue16 [d0]).toInt = d0.toInt ∧ (dispValue32 [d0]).toInt = d0.toInt)
    ∧ (∀ d0 d1 : Byte, (dispValue16 [d0, d1]).toNat = d0.toNat + 2 ^ 8 * d1.toNat)
    ∧ (∀ d0 d1 d2 d3 : Byte, (dispValue32 [d0, d1, d2, d3]).toNat
        = d0.toNat + 2 ^ 8 * d1.toNat + 2 ^ 16 * d2.toNat + 2 ^ 24 * d3.toNat)
    ∧ (∀ d : Decoded, immediateOf d = none ↔ d.imm = [])
    ∧ (∀ (d : Decoded) (v : Nat), immediateOf d = some v →
        v < 2 ^ (8 * d.imm.length)
          ∧ ∀ (k j : Nat) (hk : k < d.imm.length), j < 8 → v.testBit (8 * k + j) = d.imm[k].getLsbD j)

/-- R95: the size attributes of an instruction from its prefixes. -/
def Obligations.SizeAttributesFromPrefixes : Prop :=
  ∀ (p : Launch) (P : PrefixSet),
    operandSizeOf p P = (if P.operandSize then (if p.defaultOperandSize = .s16 then .s32 else .s16) else p.defaultOperandSize)
      ∧ addressSizeOf p P = (if P.addressSize then (if p.defaultAddressSize = .s16 then .s32 else .s16) else p.defaultAddressSize)

/-! ## Steps -/

/-- A step runs the decoded instruction: when the byte after the recorded prefixes is fetched and decodes to a well-formed instruction,
the step is that instruction on the state with the byte's location noted, unless CMC makes the instruction longer than
`MaxInstrLength`, which is refused. -/
def Obligations.StepRunsTheDecodedInstruction : Prop :=
  ∀ (s : State) (l : Nat) (b : Byte) (i : Instr), s.final = false → fetchByte s (prefixCount s.prefixes) = .ok (l, b) →
    decodeByte b = .ok i →
      i.wellFormed = true
        ∧ step s = (if i = .cmc ∧ s.launch.maxInstrLength < prefixCount s.prefixes + 1 then .refused .tooLong
            else exec i (s.noteFetched l))

/-- A byte placed where the first instruction is fetched is the first instruction run from reset, for every row of the table that is a
decoder's own name. -/
def Obligations.PlacedRowRunsFirst : Prop :=
  ∀ (i : Instr) (b : Byte), i.wellFormed = true → encode i = [b] →
    decodeTableWord 8 b.toNat = some i
      ∧ step (State.reset.withFetchWord 8 b.toNat) = exec i ((State.reset.withFetchWord 8 b.toNat).noteFetched 0)

/-- R94, R75: an opcode byte that is neither a prefix nor F5 and that `OpcodeShape` does not show is refused, and no exception is
raised. -/
def Obligations.UnshownOpcodesAreRefused : Prop :=
  ∀ (s : State) (l : Nat) (b : Byte), s.final = false → fetchByte s (prefixCount s.prefixes) = .ok (l, b) →
    prefixOfByte b = none → b ≠ 0xF5 → lookupByte b s.launch.opcodeShape = none → step s = .refused .opcodeNotShown

/-- The machine, which reads prefix bytes one step each, follows the decoder of R97, which reads a whole instruction: where R97 refuses or
faults, at most six steps end in the same refusal or fault; where it decodes an instruction, the steps of its prefixes lead to a state
that differs in the prefix set and the note of fetched bytes only, and the step there runs CMC for the opcode F5 and is
refused for every other opcode. -/
def Obligations.MachineFollowsTheWholeDecoder : Prop :=
  ∀ s : State, s.prefixes = noPrefixes → s.final = false →
    (∀ e : Stop, decodeAt s = .error e → core.run 6 s = e.outcome)
      ∧ ∀ d : Decoded, decodeAt s = .ok d →
          ∃ (t : State) (l : Nat) (b : Byte), core.run (prefixCount d.prefixes) s = .next t ∧ t.prefixes = d.prefixes
            ∧ s.sameButProgress t ∧ fetchByte t (prefixCount d.prefixes) = .ok (l, b) ∧ d.opcode.head? = some b
            ∧ step t = (if d.opcode = [0xF5] then exec .cmc (t.noteFetched l)
                else .refused (.noInstructionPage d.opcode))

/-- Every step keeps the invariant: memory and the location notes in canonical form, no location both fetched and stored to. -/
def Obligations.StepKeepsTheInvariant : Prop :=
  ∀ s t : State, s.inv → step s = .next t → t.inv

/-- The state the model starts from has the invariant. -/
def Obligations.ResetHasTheInvariant : Prop :=
  State.reset.inv

/-- What any step may change, a step being one row of the opcode table (log 1, the model's choice: the spec's step is a whole
instruction, R97): never a register, a byte of memory or a launch parameter; `ip` moves by one exactly when an
instruction completes, and then CF is complemented and no prefix is left; else only the prefix set grows. -/
def Obligations.StepFrame : Prop :=
  ∀ s t : State, step s = .next t →
    (∀ r, t.read32 r = s.read32 r) ∧ (∀ r, t.selector r = s.selector r) ∧ (∀ a, t.mem.read a = s.mem.read a)
      ∧ t.launch = s.launch ∧ t.stored = s.stored
      ∧ ((t.ip = s.ip + 1 ∧ t.cf = !s.cf ∧ s.prefixes = noPrefixes ∧ t.prefixes = noPrefixes)
          ∨ (t.ip = s.ip ∧ t.cf = s.cf ∧ prefixCount t.prefixes = prefixCount s.prefixes + 1))

/-- In six steps that all answer, at least one instruction completes: with five prefix classes no run of prefix bytes is longer (R74).
It counts steps, and that a prefix byte is a step of its own is the model's choice (log 1). -/
def Obligations.SixStepsCompleteAnInstruction : Prop :=
  ∀ s t : State, core.run 6 s = .next t → t.ip ≠ s.ip

/-- R213, R216, R212: whatever fault a step ends in, `Translate` raised it, answering the fetch of a byte of the current instruction:
byte `k`, the first one after the recorded prefixes (log 1) whose fetch does not answer. The fault carries the number of Table 17-6,
the error code of the answer and the instruction's `ip`. -/
def Obligations.ExceptionsComeFromTranslate : Prop :=
  ∀ (s : State) (f : Fault), step s = .fault f →
    ∃ (k : Nat) (e : ExceptionName) (c : Option Nat),
      f = .exception e (interruptNumber e) c s.ip
        ∧ prefixCount s.prefixes ≤ k ∧ s.ip.toNat + k < 2 ^ 32
        ∧ (∀ j, prefixCount s.prefixes ≤ j → j < k → ∃ x, fetchByte s j = .ok x)
        ∧ fetchByte s k = .error (.fault f)
        ∧ translate s.launch.translate
            { source := .segment .cs, offset := s.ip.toNat + k, width := .byte, byte := 0, kind := .fetch } = .fault e c

/-- R221, R32: no step reads the operating mode, and none changes it. (`Translate`, as a table of rows, does not read it: log 6, the
model's choice.) -/
def Obligations.ModeIsNotRead : Prop :=
  ∀ (s : State) (m : Mode), step (s.withMode m) = mapNext (fun t => t.withMode m) (step s)

/-- No step depends on a general or segment register. For the segment registers this rests on the model's choices: the selectors stand
in State and nothing reads them (log 7), and `Translate` as a table of rows depends on no state (log 6). -/
def Obligations.RegistersDoNotInfluenceSteps : Prop :=
  ∀ (s : State) (g : Regs) (sg : SegRegs),
    step (s.withRegisters g sg) = mapNext (fun t => t.withRegisters g sg) (step s)

/-- R239 (the refusal is the model's choice, log 10): the run has ended exactly when `ip` is `end_ip`, and a step is refused as ended
exactly there. -/
def Obligations.RunEndsExactlyAtEndIp : Prop :=
  ∀ s : State, (s.final = true ↔ s.launch.endIp = some s.ip) ∧ (step s = .refused .runEnded ↔ s.final = true)

/-- R26: a fetch that would cross the top of the offset space is refused before anything is asked of `Translate`. -/
def Obligations.FetchAcrossTheTopIsRefused : Prop :=
  (∀ (s : State) (k : Nat), 2 ^ 32 ≤ s.ip.toNat + k → fetchByte s k = .error (.refusal .fetchAcrossTop))
    ∧ ∀ s : State, s.final = false → 2 ^ 32 ≤ s.ip.toNat + prefixCount s.prefixes → step s = .refused .fetchAcrossTop

/-! ## Registers -/

/-- R20, R21, R22: the codes of the register names. -/
def Obligations.RegisterCodes : Prop :=
  ([0, 1, 2, 3, 4, 5, 6, 7] : List (BitVec 3)).map reg32 = [.eax, .ecx, .edx, .ebx, .esp, .ebp, .esi, .edi]
    ∧ ([0, 1, 2, 3, 4, 5, 6, 7] : List (BitVec 3)).map reg16 = [.ax, .cx, .dx, .bx, .sp, .bp, .si, .di]
    ∧ ([0, 1, 2, 3, 4, 5, 6, 7] : List (BitVec 3)).map reg8 = [.al, .cl, .dl, .bl, .ah, .ch, .dh, .bh]
    ∧ (∀ r, reg32 (code32 r) = r) ∧ (∀ r, reg16 (code16 r) = r) ∧ (∀ r, reg8 (code8 r) = r)

/-- R23: bit by bit, what the 16-bit and 8-bit names read, and that a write to one changes its own bits of its register and no
others. -/
def Obligations.RegisterViewsAlias : Prop :=
  (∀ (s : State) (c : BitVec 3) (k : Nat), k < 16 → (s.read16 (reg16 c)).getLsbD k = (s.read32 (reg32 c)).getLsbD k)
    ∧ (∀ (s : State) (c : BitVec 3) (k : Nat), c.toNat < 4 → k < 8 →
        (s.read8 (reg8 c)).getLsbD k = (s.read32 (reg32 c)).getLsbD k
        ∧ (s.read8 (reg8 (c + 4))).getLsbD k = (s.read32 (reg32 c)).getLsbD (k + 8))
    ∧ (∀ (s : State) (c : BitVec 3) (v : Word),
        (∀ k, ((s.write16 (reg16 c) v).read32 (reg32 c)).getLsbD k = if k < 16 then v.getLsbD k else (s.read32 (reg32 c)).getLsbD k)
        ∧ ∀ r, r ≠ reg32 c → (s.write16 (reg16 c) v).read32 r = s.read32 r)
    ∧ (∀ (s : State) (c : BitVec 3) (v : Byte), c.toNat < 4 →
        (∀ k, ((s.write8 (reg8 c) v).read32 (reg32 c)).getLsbD k = if k < 8 then v.getLsbD k else (s.read32 (reg32 c)).getLsbD k)
        ∧ (∀ k, ((s.write8 (reg8 (c + 4)) v).read32 (reg32 c)).getLsbD k =
            if 8 ≤ k ∧ k < 16 then v.getLsbD (k - 8) else (s.read32 (reg32 c)).getLsbD k)
        ∧ ∀ r, r ≠ reg32 c →
            (s.write8 (reg8 c) v).read32 r = s.read32 r ∧ (s.write8 (reg8 (c + 4)) v).read32 r = s.read32 r)

/-! ## Memory -/

/-- R51: a store puts bits `8k+7` to `8k` of the value at the location of byte `k`, and a load of the same bytes, where they are
located the same, answers the value's low bits. -/
def Obligations.StoresAndLoadsAreLittleEndian : Prop :=
  ∀ (s : State) (src : AddressSource) (off : Nat) (w : AccessWidth) (v : DWord) (ls : List Nat),
    locate s src off w .store 0 (accessBytes w) = .ok ls → locate s src off w .load 0 (accessBytes w) = .ok ls → ls.Nodup →
    (∀ l ∈ ls, l ∉ s.fetched) →
      ∃ t, memWrite s src off w v = .ok t
        ∧ (∀ k (hk : k < ls.length), t.mem.read ls[k] = v.extractLsb' (8 * k) 8)
        ∧ memRead t src off w = .ok (BitVec.ofNat 32 (v.toNat % 2 ^ (8 * accessBytes w)))

/-- The frame of a store: outside the locations of its bytes every byte of memory reads as before, and of the rest of the state
only the note of stored locations changes. -/
def Obligations.StoreFrame : Prop :=
  ∀ (s t : State) (src : AddressSource) (off : Nat) (w : AccessWidth) (v : DWord) (ls : List Nat),
    locate s src off w .store 0 (accessBytes w) = .ok ls → memWrite s src off w v = .ok t →
      (∀ a, a ∉ ls → t.mem.read a = s.mem.read a)
        ∧ t.regs = s.regs ∧ t.segs = s.segs ∧ t.ip = s.ip ∧ t.cf = s.cf ∧ t.prefixes = s.prefixes ∧ t.fetched = s.fetched
        ∧ t.launch = s.launch ∧ (∀ a, a ∈ t.stored ↔ a ∈ ls ∨ a ∈ s.stored)

/-- R61: a store that touches a byte fetched in this run is refused, and a fetch of a byte stored in this run is refused. -/
def Obligations.ProgramBytesAreFixed : Prop :=
  (∀ (s : State) (src : AddressSource) (off : Nat) (w : AccessWidth) (v : DWord) (ls : List Nat) (l : Nat),
      locate s src off w .store 0 (accessBytes w) = .ok ls → l ∈ ls → l ∈ s.fetched →
        memWrite s src off w v = .error (.refusal .storeToFetched))
    ∧ (∀ (s : State) (l k : Nat), s.ip.toNat + k < 2 ^ 32 →
        translate s.launch.translate
          { source := .segment .cs, offset := s.ip.toNat + k, width := .byte, byte := 0, kind := .fetch } = .location l →
        l ∈ s.stored → fetchByte s k = .error (.refusal .fetchOfStored))

/-- R215, R212, R213: where `Translate` locates the first `k` bytes of an access and faults on the next, the access raises that fault and
does nothing, a load and a store alike; and nothing else stops a load, and nothing else but the refusal of R61 a store. -/
def Obligations.FirstFaultingByteRaises : Prop :=
  (∀ (s : State) (src : AddressSource) (off : Nat) (w : AccessWidth) (v : DWord) (k : Nat) (e : ExceptionName) (c : Option Nat),
    k < accessBytes w →
      ((∀ j, j < k → ∃ l, translate s.launch.translate ⟨src, off, w, j, .load⟩ = .location l) →
        translate s.launch.translate ⟨src, off, w, k, .load⟩ = .fault e c →
          memRead s src off w = .error (.fault (.exception e (interruptNumber e) c s.ip)))
      ∧ ((∀ j, j < k → ∃ l, translate s.launch.translate ⟨src, off, w, j, .store⟩ = .location l) →
        translate s.launch.translate ⟨src, off, w, k, .store⟩ = .fault e c →
          memWrite s src off w v = .error (.fault (.exception e (interruptNumber e) c s.ip))))
    ∧ (∀ (s : State) (src : AddressSource) (off : Nat) (w : AccessWidth) (x : Stop), memRead s src off w = .error x →
      ∃ (k : Nat) (e : ExceptionName) (c : Option Nat), k < accessBytes w
        ∧ (∀ j, j < k → ∃ l, translate s.launch.translate ⟨src, off, w, j, .load⟩ = .location l)
        ∧ translate s.launch.translate ⟨src, off, w, k, .load⟩ = .fault e c
        ∧ x = .fault (.exception e (interruptNumber e) c s.ip))
    ∧ (∀ (s : State) (src : AddressSource) (off : Nat) (w : AccessWidth) (v : DWord) (x : Stop),
      memWrite s src off w v = .error x →
      (∃ (k : Nat) (e : ExceptionName) (c : Option Nat), k < accessBytes w
        ∧ (∀ j, j < k → ∃ l, translate s.launch.translate ⟨src, off, w, j, .store⟩ = .location l)
        ∧ translate s.launch.translate ⟨src, off, w, k, .store⟩ = .fault e c
        ∧ x = .fault (.exception e (interruptNumber e) c s.ip))
      ∨ (x = .refusal .storeToFetched
        ∧ ∃ ls l, locate s src off w .store 0 (accessBytes w) = .ok ls ∧ l ∈ ls ∧ l ∈ s.fetched))

/-- `Translate` as a table is no restriction (R65, D6): whatever a function answers to any finite list of queries, some table
answers the same. -/
def Obligations.EveryTranslateIsATable : Prop :=
  ∀ (f : TranslateQuery → TranslateAnswer) (qs : List TranslateQuery), ∃ rows : List TranslateRow, ∀ q ∈ qs, translate rows q = f q

/-! ## Addressing forms -/

/-- R156 against Table 17-2 row by row (R141 to R145, R154); and an instruction of address size 16 has the operand of its ModR/M byte's
row, its own displacement bytes read as a 16-bit displacement, none without a ModR/M byte (R140). -/
def Obligations.Operand16AgreesWithTable172 : Prop :=
  (∀ (s : State) (o : Option SegReg) (m : Byte) (D : Word), operand16 s o m D = operandByTable172 s o m D)
    ∧ ∀ (s : State) (d : Decoded), d.addressSize = .s16 →
        operandOf s d = d.addressing.modrm.map
          (fun m => operandByTable172 s d.prefixes.segment m (dispValue16 d.addressing.disp))

/-- R157 against Tables 17-3 and 17-4 row by row (R146 to R154); and an instruction of address size 32 has the operand of its ModR/M and
SIB bytes' rows, its own displacement bytes read as a 32-bit displacement, none without a ModR/M byte (R140). Where no SIB byte stands,
the row does not depend on one. -/
def Obligations.Operand32AgreesWithTables173And174 : Prop :=
  (∀ (s : State) (o : Option SegReg) (m sib : Byte) (D : DWord), operand32 s o m sib D = operandByTable173 s o m sib D)
    ∧ (∀ (s : State) (d : Decoded) (sib : Byte), d.addressSize = .s32 →
        (d.addressing.sib = some sib ∨ ∀ m, d.addressing.modrm = some m → hasSIB .s32 m = false) →
        operandOf s d = d.addressing.modrm.map
          (fun m => operandByTable173 s d.prefixes.segment m sib (dispValue32 d.addressing.disp)))

/-- R144: under either address size Mod = 11 names the register whose code is R/M; no SIB byte and no displacement follow; the
operand's width picks the 8-, 16- or 32-bit name, for a read and for a write. A written register operand reads back, and nothing but
that register, or the part of it that the name names, changes. A memory operand is read and written at its segment and offset.
R79: REG is the code of a register operand, of the width of the shape and the operand size, where the shape says `/r`; the digit of
the opcode where it says `/digit`; and never both. -/
def Obligations.RegisterOperandForms : Prop :=
  (∀ (s : State) (o : Option SegReg) (m sib : Byte) (D : Word) (D' : DWord), modField m = 3 →
    operand16 s o m D = .reg (rmField m) ∧ operand32 s o m sib D' = .reg (rmField m)
      ∧ (∀ size, hasSIB size m = false) ∧ (∀ size x, dispBytes size m x = 0)
      ∧ readRegister s (rmField m) .byte = (s.read8 (reg8 (rmField m))).zeroExtend 32
      ∧ readRegister s (rmField m) .word = (s.read16 (reg16 (rmField m))).zeroExtend 32
      ∧ readRegister s (rmField m) .dword = s.read32 (reg32 (rmField m)))
    ∧ (∀ (s : State) (c : BitVec 3) (w : AccessWidth) (v : DWord),
        readOperand s (.reg c) w = .ok (readRegister s c w)
        ∧ ∃ t, writeOperand s (.reg c) w v = .ok t ∧ t = { s with regs := t.regs }
            ∧ readOperand t (.reg c) w = .ok (BitVec.ofNat 32 (v.toNat % 2 ^ (8 * accessBytes w)))
            ∧ (w = .byte → t = s.write8 (reg8 c) (v.extractLsb' 0 8))
            ∧ (w = .word → t = s.write16 (reg16 c) (v.extractLsb' 0 16))
            ∧ (w = .dword → t.read32 (reg32 c) = v ∧ ∀ r, r ≠ reg32 c → t.read32 r = s.read32 r))
    ∧ (∀ (s : State) (seg : SegReg) (ea : DWord) (w : AccessWidth) (v : DWord),
        readOperand s (.mem seg ea) w = memRead s (.segment seg) ea.toNat w
        ∧ writeOperand s (.mem seg ea) w v = memWrite s (.segment seg) ea.toNat w v)
    ∧ (∀ (sh : Shape) (d : Decoded) (m : Byte), d.addressing.modrm = some m →
        (∀ isByte, sh.regField = .register isByte →
          ∃ w, regOperandOf sh d = some (.reg (regField m), w) ∧ opcodeDigit sh d = none
            ∧ (isByte = true → ∀ s, readOperand s (.reg (regField m)) w = .ok ((s.read8 (reg8 (regField m))).zeroExtend 32))
            ∧ (isByte = false → d.operandSize = .s16 →
                ∀ s, readOperand s (.reg (regField m)) w = .ok ((s.read16 (reg16 (regField m))).zeroExtend 32))
            ∧ (isByte = false → d.operandSize = .s32 →
                ∀ s, readOperand s (.reg (regField m)) w = .ok (s.read32 (reg32 (regField m)))))
        ∧ (sh.regField = .digit → opcodeDigit sh d = some (regField m) ∧ regOperandOf sh d = none)
        ∧ (sh.regField = .unused → opcodeDigit sh d = none ∧ regOperandOf sh d = none))
    ∧ (∀ (sh : Shape) (d : Decoded), d.addressing.modrm = none → opcodeDigit sh d = none ∧ regOperandOf sh d = none)

/-- R145: the default segment of the 16-bit memory forms, with no override: SS for R/M = 010 and 011, and for 110 where Mod is not 00;
DS for the others. -/
def Obligations.DefaultSegmentOf16BitForms : Prop :=
  ∀ (s : State) (m : Byte) (D : Word), modField m ≠ 3 →
    ∃ ea, operand16 s none m D =
      .mem (if rmField m = 2 ∨ rmField m = 3 ∨ (rmField m = 6 ∧ modField m ≠ 0) then .ss else .ds) ea

/-- R149: the scaled index: nothing for Index = 100 whatever the scale, else the register times 2^SS, low 32 bits kept. -/
def Obligations.ScaledIndexIsRegisterTimesPowerOfTwo : Prop :=
  ∀ (s : State) (sib : Byte),
    (indexField sib = 4 → scaledIndex s sib = 0)
      ∧ (indexField sib ≠ 4 →
          (scaledIndex s sib).toNat = (s.read32 (reg32 (indexField sib))).toNat * 2 ^ (scaleField sib).toNat % 2 ^ 32)

/-- R154: a segment override replaces the segment of a memory operand and leaves the offset; a register operand is not changed. -/
def Obligations.OverrideReplacesTheSegmentOnly : Prop :=
  ∀ (s : State) (r : SegReg) (m sib : Byte) (D : Word) (D' : DWord),
    (∀ c, operand16 s none m D = .reg c → operand16 s (some r) m D = .reg c)
      ∧ (∀ d ea, operand16 s none m D = .mem d ea → operand16 s (some r) m D = .mem r ea)
      ∧ (∀ c, operand32 s none m sib D' = .reg c → operand32 s (some r) m sib D' = .reg c)
      ∧ (∀ d ea, operand32 s none m sib D' = .mem d ea → operand32 s (some r) m sib D' = .mem r ea)

/-! ## The functions of the Operation paragraphs -/

/-- R180: the operand size of the forms of CMPS. -/
def Obligations.CmpsFormsFixTheOperandSize : Prop :=
  ∀ a : Size, cmpsOperandSize .cmpsw a = .s16 ∧ cmpsOperandSize .cmpsd a = .s32 ∧ cmpsOperandSize .cmps a = a

/-- R181 for `StackAddrSize` 16: SP goes down by the operand's bytes modulo 2^16, bits 31 to 16 of ESP stay, the value's bytes stand in
SS from the new SP on, and nothing else of registers, flags and memory changes. -/
def Obligations.PushOn16BitStack : Prop :=
  ∀ (s : State) (size : Size) (v : DWord) (ls : List Nat), s.launch.stackAddrSize = .s16 →
    locate s (.segment .ss) (s.read16 .sp - BitVec.ofNat 16 (sizeBytes size)).toNat (sizeWidth size) .store 0 (sizeBytes size)
      = .ok ls → ls.Nodup → (∀ l ∈ ls, l ∉ s.fetched) →
      ∃ t, push s size v = .ok t ∧ t.read16 .sp = s.read16 .sp - BitVec.ofNat 16 (sizeBytes size)
        ∧ (t.read32 .esp).extractLsb' 16 16 = (s.read32 .esp).extractLsb' 16 16
        ∧ (∀ r, r ≠ .esp → t.read32 r = s.read32 r)
        ∧ (∀ k (hk : k < ls.length), t.mem.read ls[k] = v.extractLsb' (8 * k) 8)
        ∧ (∀ a, a ∉ ls → t.mem.read a = s.mem.read a)
        ∧ t.cf = s.cf ∧ t.ip = s.ip ∧ t.segs = s.segs ∧ t.prefixes = s.prefixes ∧ t.launch = s.launch

/-- R181 for `StackAddrSize` 32: the same with ESP, modulo 2^32. -/
def Obligations.PushOn32BitStack : Prop :=
  ∀ (s : State) (size : Size) (v : DWord) (ls : List Nat), s.launch.stackAddrSize = .s32 →
    locate s (.segment .ss) (s.read32 .esp - BitVec.ofNat 32 (sizeBytes size)).toNat (sizeWidth size) .store 0 (sizeBytes size)
      = .ok ls → ls.Nodup → (∀ l ∈ ls, l ∉ s.fetched) →
      ∃ t, push s size v = .ok t ∧ t.read32 .esp = s.read32 .esp - BitVec.ofNat 32 (sizeBytes size)
        ∧ (∀ r, r ≠ .esp → t.read32 r = s.read32 r)
        ∧ (∀ k (hk : k < ls.length), t.mem.read ls[k] = v.extractLsb' (8 * k) 8)
        ∧ (∀ a, a ∉ ls → t.mem.read a = s.mem.read a)
        ∧ t.cf = s.cf ∧ t.ip = s.ip ∧ t.segs = s.segs ∧ t.prefixes = s.prefixes ∧ t.launch = s.launch

/-- R182: a pop after a push of the same operand size, where loads and stores of the stack are located alike, answers the pushed value's
low bits, restores every register and leaves memory as the push left it. -/
def Obligations.PopAfterPushRestores : Prop :=
  ∀ (s t : State) (size : Size) (v : DWord) (ls : List Nat), push s size v = .ok t →
    locate t (.segment .ss) (stackOffset t) (sizeWidth size) .store 0 (sizeBytes size) = .ok ls →
    locate t (.segment .ss) (stackOffset t) (sizeWidth size) .load 0 (sizeBytes size) = .ok ls → ls.Nodup →
      ∃ u, pop t size = .ok (BitVec.ofNat 32 (v.toNat % 2 ^ (8 * sizeBytes size)), u) ∧ u.regs = s.regs ∧ u.mem = t.mem
        ∧ u.cf = s.cf ∧ u.ip = s.ip

/-- R182: a pop reads at the old pointer and then moves it up by the operand's bytes at the width of `StackAddrSize`; nothing but SP or
ESP changes: no byte of memory, no flag, nothing else of the state; where the load stops, so does the pop. -/
def Obligations.PopReadsThenMovesThePointer : Prop :=
  ∀ (s : State) (size : Size),
    (∀ v, memRead s (.segment .ss)
          (if s.launch.stackAddrSize = .s16 then (s.read16 .sp).toNat else (s.read32 .esp).toNat) (sizeWidth size) = .ok v →
      ∃ u, pop s size = .ok (v, u) ∧ u.mem = s.mem
        ∧ u.cf = s.cf ∧ u.ip = s.ip ∧ u.segs = s.segs ∧ u.prefixes = s.prefixes ∧ u.launch = s.launch
        ∧ u.fetched = s.fetched ∧ u.stored = s.stored
        ∧ (∀ r, r ≠ .esp → u.read32 r = s.read32 r)
        ∧ (s.launch.stackAddrSize = .s16 → u.read16 .sp = s.read16 .sp + BitVec.ofNat 16 (sizeBytes size)
            ∧ (u.read32 .esp).extractLsb' 16 16 = (s.read32 .esp).extractLsb' 16 16)
        ∧ (s.launch.stackAddrSize = .s32 → u.read32 .esp = s.read32 .esp + BitVec.ofNat 32 (sizeBytes size)))
    ∧ ∀ e, memRead s (.segment .ss)
          (if s.launch.stackAddrSize = .s16 then (s.read16 .sp).toNat else (s.read32 .esp).toNat) (sizeWidth size) = .error e →
        pop s size = .error e

/-- A push keeps the invariant of the machine. -/
def Obligations.PushKeepsTheInvariant : Prop :=
  ∀ (s t : State) (size : Size) (v : DWord), s.inv → push s size v = .ok t → t.inv

/-- R185: `DIV` is the greatest integer quotient, `MOD` the rest, not negative; for 8 and a 32-bit number they are the arithmetic shift
right by 3 and the low three bits. -/
def Obligations.DivRoundsDownAndModIsNotNegative : Prop :=
  (∀ a b : Int, 0 < b → floorDiv a b * b ≤ a ∧ (∀ q : Int, q * b ≤ a → q ≤ floorDiv a b)
      ∧ posMod a b = a - b * floorDiv a b ∧ 0 ≤ posMod a b ∧ posMod a b < b)
    ∧ (∀ a : DWord, floorDiv a.toInt 8 = (a.sshiftRight 3).toInt ∧ posMod a.toInt 8 = ((a.extractLsb' 0 3).toNat : Int))
    ∧ [(13, 8), (-1, 8), (-8, 8), (-9, 8), (0, 8)].map (fun x : Int × Int => floorDiv x.1 x.2) = [1, -1, -1, -2, 0]
    ∧ [(13, 8), (-1, 8), (-8, 8), (-9, 8)].map (fun x : Int × Int => posMod x.1 x.2) = [5, 7, 0, 7]

/-- R184: the byte offset of a memory bit is the base plus `BitOffset DIV 8`, modulo 2^32 or 2^16 by the address size, its bit number
is `BitOffset MOD 8`, and the bit read is that bit of that byte. -/
def Obligations.BitInMemoryIsAddressedByDivAndMod : Prop :=
  (∀ ea bitOffset : DWord,
      ((bitByteOffset .s32 ea bitOffset).toNat : Int) = ((ea.toNat : Int) + Int.fdiv bitOffset.toInt 8) % 2 ^ 32
        ∧ ((bitByteOffset .s16 ea bitOffset).toNat : Int) = ((ea.toNat : Int) + Int.fdiv bitOffset.toInt 8) % 2 ^ 16
        ∧ ((bitNumber bitOffset).val : Int) = bitOffset.toInt % 8)
    ∧ (∀ (s : State) (size : Size) (seg : SegReg) (ea bitOffset b : DWord),
        memRead s (.segment seg) (bitByteOffset size ea bitOffset).toNat .byte = .ok b →
          readBit s (bitInMemory size seg ea bitOffset) = .ok (b.getLsbD (bitNumber bitOffset).val))

/-- R183, R184: an assigned bit reads back, in a register of either width and, where loads and stores of the byte are located alike, in
memory; the other bits of that register or byte are as before. -/
def Obligations.AssignedBitReadsBack : Prop :=
  (∀ (s : State) (r : Reg32) (k : Fin 32) (v : Bool), ∃ t, assignBit s (.reg32 r k) v = .ok t
      ∧ readBit t (.reg32 r k) = .ok v ∧ (∀ j : Fin 32, j ≠ k → readBit t (.reg32 r j) = readBit s (.reg32 r j)))
    ∧ (∀ (s : State) (r : Reg16) (k : Fin 16) (v : Bool), ∃ t, assignBit s (.reg16 r k) v = .ok t
      ∧ readBit t (.reg16 r k) = .ok v ∧ (∀ j : Fin 16, j ≠ k → readBit t (.reg16 r j) = readBit s (.reg16 r j)))
    ∧ (∀ (s t : State) (seg : SegReg) (o : DWord) (k : Fin 8) (v : Bool), assignBit s (.mem seg o k) v = .ok t →
      locate s (.segment seg) o.toNat .byte .load 0 1 = locate s (.segment seg) o.toNat .byte .store 0 1 →
        readBit t (.mem seg o k) = .ok v ∧ (∀ j : Fin 8, j ≠ k → readBit t (.mem seg o j) = readBit s (.mem seg o j)))

/-- R186 for a 386 TSS: with the bitmap pointer and the bitmap word read, the answer is TRUE exactly when the bit of every port the
access covers is 0. -/
def Obligations.IoPermissionChecksEveryCoveredPort : Prop :=
  ∀ (s : State) (port : Nat) (w : AccessWidth) (ptr word : DWord), s.launch.tssType = .tss386 →
    memRead s .system (s.launch.tss + s.launch.ioMapPtrOffset) .word = .ok ptr →
    memRead s .system (s.launch.tss + (port / 8 + ptr.toNat)) .word = .ok word →
      ∃ b, ioPermission s port w = .ok b
        ∧ (b = true ↔ ∀ j, j < accessBytes w → word.toNat.testBit (port % 8 + j) = false)

/-- R186 for a 286 TSS: FALSE, and nothing is read. -/
def Obligations.IoPermissionOf286TssIsFalse : Prop :=
  ∀ (s : State) (port : Nat) (w : AccessWidth), s.launch.tssType = .tss286 → ioPermission s port w = .ok false

/-! ## Exceptions -/

/-- R201: Table 17-6, complete. -/
def Obligations.ExceptionTable : Prop :=
  ([.ud, .nm, .df, .ts, .np, .ss, .gp, .pf, .mf] : List ExceptionName).map
      (fun e => (exceptionMnemonic e, interruptNumber e, exceptionDescription e))
    = [("#UD", 6, "Invalid opcode"), ("#NM", 7, "Coprocessor not available"), ("#DF", 8, "Double fault"),
       ("#TS", 10, "Invalid TSS"), ("#NP", 11, "Segment or gate not present"), ("#SS", 12, "Stack fault"),
       ("#GP", 13, "General protection fault"), ("#PF", 14, "Page fault"), ("#MF", 16, "Math (coprocessor) fault")]
end

