-- ==== Sys2Proof/Laws/State.lean ====
section
/-! SUPPORT. One lemma per field per update of the state, each true by unfolding, so that no later proof unfolds an update. -/

namespace Sys2Proof.Machine

variable (s : State)

@[simp] theorem State.setCF_regs (b : Bool) : (s.setCF b).regs = s.regs := rfl
@[simp] theorem State.setCF_segs (b : Bool) : (s.setCF b).segs = s.segs := rfl
@[simp] theorem State.setCF_ip (b : Bool) : (s.setCF b).ip = s.ip := rfl
@[simp] theorem State.setCF_cf (b : Bool) : (s.setCF b).cf = b := rfl
@[simp] theorem State.setCF_prefixes (b : Bool) : (s.setCF b).prefixes = s.prefixes := rfl
@[simp] theorem State.setCF_mem (b : Bool) : (s.setCF b).mem = s.mem := rfl
@[simp] theorem State.setCF_fetched (b : Bool) : (s.setCF b).fetched = s.fetched := rfl
@[simp] theorem State.setCF_stored (b : Bool) : (s.setCF b).stored = s.stored := rfl
@[simp] theorem State.setCF_launch (b : Bool) : (s.setCF b).launch = s.launch := rfl

@[simp] theorem State.write32_regs (r : Reg32) (v : DWord) : (s.write32 r v).regs = s.regs.set r v := rfl
@[simp] theorem State.write32_segs (r : Reg32) (v : DWord) : (s.write32 r v).segs = s.segs := rfl
@[simp] theorem State.write32_ip (r : Reg32) (v : DWord) : (s.write32 r v).ip = s.ip := rfl
@[simp] theorem State.write32_cf (r : Reg32) (v : DWord) : (s.write32 r v).cf = s.cf := rfl
@[simp] theorem State.write32_prefixes (r : Reg32) (v : DWord) : (s.write32 r v).prefixes = s.prefixes := rfl
@[simp] theorem State.write32_mem (r : Reg32) (v : DWord) : (s.write32 r v).mem = s.mem := rfl
@[simp] theorem State.write32_fetched (r : Reg32) (v : DWord) : (s.write32 r v).fetched = s.fetched := rfl
@[simp] theorem State.write32_stored (r : Reg32) (v : DWord) : (s.write32 r v).stored = s.stored := rfl
@[simp] theorem State.write32_launch (r : Reg32) (v : DWord) : (s.write32 r v).launch = s.launch := rfl

@[simp] theorem State.write16_regs (r : Reg16) (v : Word) : (s.write16 r v).regs = s.regs.set (parent16 r) ((s.read32 (parent16 r)).extractLsb' 16 16 ++ v) := rfl
@[simp] theorem State.write16_segs (r : Reg16) (v : Word) : (s.write16 r v).segs = s.segs := rfl
@[simp] theorem State.write16_ip (r : Reg16) (v : Word) : (s.write16 r v).ip = s.ip := rfl
@[simp] theorem State.write16_cf (r : Reg16) (v : Word) : (s.write16 r v).cf = s.cf := rfl
@[simp] theorem State.write16_prefixes (r : Reg16) (v : Word) : (s.write16 r v).prefixes = s.prefixes := rfl
@[simp] theorem State.write16_mem (r : Reg16) (v : Word) : (s.write16 r v).mem = s.mem := rfl
@[simp] theorem State.write16_fetched (r : Reg16) (v : Word) : (s.write16 r v).fetched = s.fetched := rfl
@[simp] theorem State.write16_stored (r : Reg16) (v : Word) : (s.write16 r v).stored = s.stored := rfl
@[simp] theorem State.write16_launch (r : Reg16) (v : Word) : (s.write16 r v).launch = s.launch := rfl

@[simp] theorem State.noteFetched_regs (l : Nat) : (s.noteFetched l).regs = s.regs := rfl
@[simp] theorem State.noteFetched_segs (l : Nat) : (s.noteFetched l).segs = s.segs := rfl
@[simp] theorem State.noteFetched_ip (l : Nat) : (s.noteFetched l).ip = s.ip := rfl
@[simp] theorem State.noteFetched_cf (l : Nat) : (s.noteFetched l).cf = s.cf := rfl
@[simp] theorem State.noteFetched_prefixes (l : Nat) : (s.noteFetched l).prefixes = s.prefixes := rfl
@[simp] theorem State.noteFetched_mem (l : Nat) : (s.noteFetched l).mem = s.mem := rfl
@[simp] theorem State.noteFetched_fetched (l : Nat) : (s.noteFetched l).fetched = s.fetched.add l := rfl
@[simp] theorem State.noteFetched_stored (l : Nat) : (s.noteFetched l).stored = s.stored := rfl
@[simp] theorem State.noteFetched_launch (l : Nat) : (s.noteFetched l).launch = s.launch := rfl

@[simp] theorem State.setPrefixes_regs (P : PrefixSet) : (s.setPrefixes P).regs = s.regs := rfl
@[simp] theorem State.setPrefixes_segs (P : PrefixSet) : (s.setPrefixes P).segs = s.segs := rfl
@[simp] theorem State.setPrefixes_ip (P : PrefixSet) : (s.setPrefixes P).ip = s.ip := rfl
@[simp] theorem State.setPrefixes_cf (P : PrefixSet) : (s.setPrefixes P).cf = s.cf := rfl
@[simp] theorem State.setPrefixes_prefixes (P : PrefixSet) : (s.setPrefixes P).prefixes = P := rfl
@[simp] theorem State.setPrefixes_mem (P : PrefixSet) : (s.setPrefixes P).mem = s.mem := rfl
@[simp] theorem State.setPrefixes_fetched (P : PrefixSet) : (s.setPrefixes P).fetched = s.fetched := rfl
@[simp] theorem State.setPrefixes_stored (P : PrefixSet) : (s.setPrefixes P).stored = s.stored := rfl
@[simp] theorem State.setPrefixes_launch (P : PrefixSet) : (s.setPrefixes P).launch = s.launch := rfl

@[simp] theorem State.advance_regs (n : Nat) : (s.advance n).regs = s.regs := rfl
@[simp] theorem State.advance_segs (n : Nat) : (s.advance n).segs = s.segs := rfl
@[simp] theorem State.advance_ip (n : Nat) : (s.advance n).ip = s.ip + BitVec.ofNat 32 n := rfl
@[simp] theorem State.advance_cf (n : Nat) : (s.advance n).cf = s.cf := rfl
@[simp] theorem State.advance_prefixes (n : Nat) : (s.advance n).prefixes = noPrefixes := rfl
@[simp] theorem State.advance_mem (n : Nat) : (s.advance n).mem = s.mem := rfl
@[simp] theorem State.advance_fetched (n : Nat) : (s.advance n).fetched = s.fetched := rfl
@[simp] theorem State.advance_stored (n : Nat) : (s.advance n).stored = s.stored := rfl
@[simp] theorem State.advance_launch (n : Nat) : (s.advance n).launch = s.launch := rfl

@[simp] theorem State.store_regs (ls : List Nat) (vs : List Byte) : (s.store ls vs).regs = s.regs := rfl
@[simp] theorem State.store_segs (ls : List Nat) (vs : List Byte) : (s.store ls vs).segs = s.segs := rfl
@[simp] theorem State.store_ip (ls : List Nat) (vs : List Byte) : (s.store ls vs).ip = s.ip := rfl
@[simp] theorem State.store_cf (ls : List Nat) (vs : List Byte) : (s.store ls vs).cf = s.cf := rfl
@[simp] theorem State.store_prefixes (ls : List Nat) (vs : List Byte) : (s.store ls vs).prefixes = s.prefixes := rfl
@[simp] theorem State.store_mem (ls : List Nat) (vs : List Byte) : (s.store ls vs).mem = s.mem.writeAll ls vs := rfl
@[simp] theorem State.store_fetched (ls : List Nat) (vs : List Byte) : (s.store ls vs).fetched = s.fetched := rfl
@[simp] theorem State.store_stored (ls : List Nat) (vs : List Byte) : (s.store ls vs).stored = s.stored.addAll ls := rfl
@[simp] theorem State.store_launch (ls : List Nat) (vs : List Byte) : (s.store ls vs).launch = s.launch := rfl

/-- A register write reaches the registers only, whatever the width of the name written. -/
theorem State.write8_frame (r : Reg8) (v : Byte) :
    ∃ w, s.write8 r v = s.write32 (parent8 r) w := by
  unfold State.write8
  split
  · exact ⟨_, rfl⟩
  · exact ⟨_, rfl⟩

@[simp] theorem State.write32_final (r : Reg32) (v : DWord) : (s.write32 r v).final = s.final := rfl
@[simp] theorem State.noteFetched_final (l : Nat) : (s.noteFetched l).final = s.final := rfl
@[simp] theorem State.setPrefixes_final (P : PrefixSet) : (s.setPrefixes P).final = s.final := rfl

end Sys2Proof.Machine
end

