-- ==== Sys2Proof/Laws/Decode.lean ====
section
/-! SUPPORT. The decoder piece by piece: prefix bytes and their values, the counts of a prefix set, what the byte supplies answer. -/

namespace Sys2Proof.Machine

/-! ## Prefix bytes -/

@[simp] theorem prefixOfByte_prefixValue (q : PrefixByte) : prefixOfByte (prefixValue q) = some q := by
  cases q with
  | repeating b => cases b <;> decide
  | segment r => cases r <;> decide
  | lock => decide
  | operandSize => decide
  | addressSize => decide

/-- A byte read as a prefix is that prefix's value. -/
theorem prefixValue_of_prefixOfByte {b : Byte} {q : PrefixByte} (h : prefixOfByte b = some q) : prefixValue q = b := by
  unfold prefixOfByte at h
  repeat' split at h
  all_goals first | (cases h; subst b; rfl) | cases h

@[simp] theorem prefixOfByte_cmc : prefixOfByte 0xF5 = none := by decide

/-! ## Prefix sets -/

@[simp] theorem prefixCount_noPrefixes : prefixCount noPrefixes = 0 := rfl

/-- Recording a byte of a class not held lengthens the prefix field by one. -/
theorem prefixCount_recordByte {P : PrefixSet} {q : PrefixByte} (h : holdsClass P (prefixClass q) = false) :
    prefixCount (recordByte P q) = prefixCount P + 1 := by
  obtain ⟨a, b, c, d, e⟩ := P
  cases q <;> cases a <;> cases b <;> cases c <;> cases d <;> cases e <;>
    simp_all [holdsClass, prefixClass, recordByte, prefixCount, prefixList]

/-- A prefix set has at most one byte of each of five classes. -/
theorem prefixCount_le_five (P : PrefixSet) : prefixCount P ≤ 5 := by
  obtain ⟨a, b, c, d, e⟩ := P
  cases a <;> cases b <;> cases c <;> cases d <;> cases e <;> simp [prefixCount, prefixList]

/-! ## Byte supplies -/

/-- The bytes a supply answers are as many as were asked for. -/
theorem fetchMany_length {ε : Type} {fetch : Nat → Except ε Byte} : ∀ {n a : Nat} {bs : List Byte},
    fetchMany fetch a n = .ok bs → bs.length = n
  | 0, _, bs, h => by simp only [fetchMany, Except.ok.injEq] at h; subst h; rfl
  | n + 1, a, bs, h => by
    unfold fetchMany at h
    split at h
    · cases h
    · split at h
      · cases h
      · rename_i bs' hbs
        simp only [Except.ok.injEq] at h
        subst h
        simp [fetchMany_length hbs]

/-- What the rest of R97 answers for F5: the one-byte instruction after the prefixes, or the length limit (R93, R89). -/
theorem decodeTail_cmc {ε : Type} (lift : Reject → ε) (fetch : Nat → Except ε Byte) (p : Launch) (P : PrefixSet) :
    decodeTail lift fetch p P 0xF5 =
      if p.maxInstrLength < prefixCount P + 1 then .error (lift .tooLong)
      else .ok
        { prefixes := P, opcode := [0xF5], addressing := { modrm := none, sib := none, disp := [] }, imm := [],
          operandSize := operandSizeOf p P, addressSize := addressSizeOf p P, length := prefixCount P + 1 } := by
  cases hs : operandSizeOf p P <;>
    simp [decodeTail, decodeOpcode, shapeEntry, decodeAddressing, cmcShape, immBytes, fetchMany, Addressing.size, hs]

end Sys2Proof.Machine
end

