-- ==== Sys2Proof/Laws/Memory.lean ====
section
/-! SUPPORT. Memory as a list of cells and sets of locations: a read after a write, and the canonical form of both kept by every
operation. -/

namespace Sys2Proof.Machine

/-! ## Rising lists -/

@[simp] theorem risingAbove_nil (k : Option Nat) : risingAbove k [] = true := by cases k <;> rfl

@[simp] theorem risingAbove_none_cons (l : Nat) (ls : Locations) : risingAbove none (l :: ls) = risingAbove (some l) ls := rfl

@[simp] theorem risingAbove_some_cons (k l : Nat) (ls : Locations) :
    risingAbove (some k) (l :: ls) = (decide (k < l) && risingAbove (some l) ls) := rfl

/-- A list that rises above a bound rises with no bound. -/
theorem risingAbove_none_of_some {k : Nat} : ∀ {ls : Locations}, risingAbove (some k) ls = true → risingAbove none ls = true
  | [], _ => by simp
  | _ :: _, h => by simpa using (by simpa using h : _ ∧ _).2

/-- Every member of a list that rises above a bound is above it. -/
theorem lt_of_risingAbove {l : Nat} : ∀ {ls : Locations} {k : Nat}, risingAbove (some k) ls = true → l ∈ ls → k < l
  | [], _, _, hm => by simp at hm
  | x :: xs, k, h, hm => by
    have hx : k < x ∧ risingAbove (some x) xs = true := by simpa using h
    rcases List.mem_cons.mp hm with rfl | hm
    · exact hx.1
    · exact Nat.lt_trans hx.1 (lt_of_risingAbove hx.2 hm)

/-! ## Sets of locations -/

theorem Locations.mem_add {x l : Nat} : ∀ {ls : Locations}, x ∈ ls.add l ↔ x = l ∨ x ∈ ls
  | [] => by simp [Locations.add]
  | k :: rest => by
    have ih := Locations.mem_add (x := x) (l := l) (ls := rest)
    unfold Locations.add
    split
    · simp
    · split
      · simp_all
      · simp only [List.mem_cons, ih]; tauto

theorem risingAbove_add {l : Nat} : ∀ {ls : Locations} {k : Nat}, risingAbove (some k) ls = true → k < l →
    risingAbove (some k) (ls.add l) = true
  | [], k, _, hk => by simp [Locations.add, hk]
  | x :: xs, k, h, hk => by
    have hx : k < x ∧ risingAbove (some x) xs = true := by simpa using h
    unfold Locations.add
    split
    · simp_all
    · split
      · simp_all
      · rename_i h1 h2
        simp [hx.1, risingAbove_add hx.2 (show x < l by omega)]

/-- Adding a location keeps a set of locations in canonical form. -/
theorem Locations.add_wf {l : Nat} : ∀ {ls : Locations}, ls.wf = true → (ls.add l).wf = true
  | [], _ => by simp [Locations.add, Locations.wf]
  | x :: xs, h => by
    have hx : risingAbove (some x) xs = true := h
    unfold Locations.add
    split
    · simp_all [Locations.wf]
    · split
      · simpa [Locations.wf] using hx
      · rename_i h1 h2
        exact risingAbove_add hx (by omega)

theorem Locations.mem_addAll {x : Nat} : ∀ {more : List Nat} {ls : Locations}, x ∈ ls.addAll more ↔ x ∈ more ∨ x ∈ ls
  | [], _ => by simp [Locations.addAll]
  | l :: more, ls => by
    simp only [Locations.addAll, Locations.mem_addAll (more := more), Locations.mem_add, List.mem_cons]; tauto

/-- Adding several locations keeps a set of locations in canonical form. -/
theorem Locations.addAll_wf : ∀ {more : List Nat} {ls : Locations}, ls.wf = true → (ls.addAll more).wf = true
  | [], _, h => h
  | _ :: more, _, h => Locations.addAll_wf (more := more) (Locations.add_wf h)

/-! ## Memory -/

@[simp] theorem Memory.read_nil (l : Nat) : Memory.read [] l = unlistedByte := rfl

theorem Memory.read_cons (k : Nat) (b : Byte) (rest : Memory) (l : Nat) :
    Memory.read ((k, b) :: rest) l = if k = l then b else Memory.read rest l := rfl

theorem Memory.read_list_same (l : Nat) (v : Byte) : ∀ m : Memory, (m.list l v).read l = v
  | [] => by simp [Memory.list, Memory.read_cons]
  | (k, b) :: rest => by
    have ih := Memory.read_list_same l v rest
    unfold Memory.list
    split
    · simp [Memory.read_cons]
    · split
      · simp [Memory.read_cons]
      · rename_i h1 h2
        simp [Memory.read_cons, ih, Ne.symm h2]

theorem Memory.read_list_other {l a : Nat} (v : Byte) (h : a ≠ l) : ∀ m : Memory, (m.list l v).read a = m.read a
  | [] => by simp [Memory.list, Memory.read_cons, Ne.symm h]
  | (k, b) :: rest => by
    have ih := Memory.read_list_other v h rest
    unfold Memory.list
    split
    · simp [Memory.read_cons, Ne.symm h]
    · split
      · rename_i h1 h2; subst h2; simp [Memory.read_cons, Ne.symm h]
      · simp [Memory.read_cons, ih]

theorem Memory.unlist_cons (k : Nat) (b : Byte) (rest : Memory) (l : Nat) :
    Memory.unlist ((k, b) :: rest) l = if k = l then Memory.unlist rest l else (k, b) :: Memory.unlist rest l := by
  by_cases h : k = l <;> simp [Memory.unlist, h]

theorem Memory.read_unlist_same (l : Nat) : ∀ m : Memory, (m.unlist l).read l = unlistedByte
  | [] => rfl
  | (k, b) :: rest => by
    have ih := Memory.read_unlist_same l rest
    rw [Memory.unlist_cons]
    split
    · exact ih
    · rename_i h; simp [Memory.read_cons, h, ih]

theorem Memory.read_unlist_other {l a : Nat} (h : a ≠ l) : ∀ m : Memory, (m.unlist l).read a = m.read a
  | [] => rfl
  | (k, b) :: rest => by
    have ih := Memory.read_unlist_other h rest
    rw [Memory.unlist_cons]
    split
    · rename_i hk; subst hk; simp [Memory.read_cons, Ne.symm h, ih]
    · simp [Memory.read_cons, ih]

/-- What is written at a location is read there. -/
@[simp] theorem Memory.read_write_same (l : Nat) (v : Byte) (m : Memory) : (m.write l v).read l = v := by
  unfold Memory.write
  split
  · rename_i h; rw [Memory.read_unlist_same, h]
  · exact Memory.read_list_same l v m

/-- A write leaves every other location alone. -/
@[simp] theorem Memory.read_write_other {l a : Nat} (v : Byte) (h : a ≠ l) (m : Memory) : (m.write l v).read a = m.read a := by
  unfold Memory.write
  split
  · exact Memory.read_unlist_other h m
  · exact Memory.read_list_other v h m

theorem Memory.list_locations (l : Nat) (v : Byte) : ∀ m : Memory,
    (m.list l v).map Prod.fst = Locations.add (m.map Prod.fst) l
  | [] => rfl
  | (k, b) :: rest => by
    have ih := Memory.list_locations l v rest
    unfold Memory.list Locations.add
    split
    · simp_all
    · split
      · simp_all
      · simp_all

theorem Memory.mem_list {l : Nat} {v : Byte} {c : Host.Cell} : ∀ {m : Memory}, c ∈ m.list l v → c = (l, v) ∨ c ∈ m
  | [], h => .inl (by simpa [Memory.list] using h)
  | (k, b) :: rest, h => by
    have ih := Memory.mem_list (l := l) (v := v) (c := c) (m := rest)
    unfold Memory.list at h
    split at h
    · simpa using h
    · split at h
      · rcases List.mem_cons.mp h with h | h
        · exact .inl h
        · exact .inr (List.mem_cons_of_mem _ h)
      · rcases List.mem_cons.mp h with h | h
        · exact .inr (by simp [h])
        · rcases ih h with h | h
          · exact .inl h
          · exact .inr (List.mem_cons_of_mem _ h)

/-- What rises above a bound rises above a lower one. -/
theorem risingAbove_lower {j k : Nat} (hjk : j ≤ k) : ∀ {ls : Locations}, risingAbove (some k) ls = true →
    risingAbove (some j) ls = true
  | [], _ => by simp
  | x :: xs, h => by
    have hx : k < x ∧ risingAbove (some x) xs = true := by simpa using h
    simp [hx.2, Nat.lt_of_le_of_lt hjk hx.1]

theorem Memory.unlist_rising (l : Nat) : ∀ {m : Memory} {k : Nat}, risingAbove (some k) (m.map Prod.fst) = true →
    risingAbove (some k) ((m.unlist l).map Prod.fst) = true
  | [], _, _ => by simp [Memory.unlist]
  | (x, b) :: rest, k, h => by
    have hx : k < x ∧ risingAbove (some x) (rest.map Prod.fst) = true := by simpa using h
    rw [Memory.unlist_cons]
    split
    · exact risingAbove_lower (Nat.le_of_lt hx.1) (Memory.unlist_rising l hx.2)
    · simp [hx.1, Memory.unlist_rising l hx.2]

theorem Memory.unlist_locations_wf (l : Nat) : ∀ {m : Memory}, Locations.wf (m.map Prod.fst) = true →
    Locations.wf ((m.unlist l).map Prod.fst) = true
  | [], _ => by simp [Memory.unlist, Locations.wf]
  | (x, b) :: rest, h => by
    have hx := Memory.unlist_rising l (m := rest) (k := x) (by simpa [Locations.wf] using h)
    rw [Memory.unlist_cons]
    split
    · exact risingAbove_none_of_some hx
    · simpa [Locations.wf] using hx

/-- A write keeps memory in canonical form. -/
theorem Memory.write_wf {m : Memory} (l : Nat) (v : Byte) (h : m.wf = true) : (m.write l v).wf = true := by
  obtain ⟨hw, hb⟩ : Locations.wf (m.map Prod.fst) = true ∧ ∀ c ∈ m, c.2 ≠ unlistedByte := by
    simpa [Memory.wf] using h
  suffices hs : Locations.wf ((m.write l v).map Prod.fst) = true ∧ ∀ c ∈ m.write l v, c.2 ≠ unlistedByte by
    simpa [Memory.wf] using hs
  unfold Memory.write
  split
  · exact ⟨Memory.unlist_locations_wf l hw, fun c hc => hb c (List.mem_filter.mp hc).1⟩
  · rename_i hv
    refine ⟨by rw [Memory.list_locations]; exact Locations.add_wf hw, fun c hc => ?_⟩
    rcases Memory.mem_list hc with rfl | hc
    · exact hv
    · exact hb c hc

/-- Writing several bytes keeps memory in canonical form. -/
theorem Memory.writeAll_wf : ∀ (ls : List Nat) (vs : List Byte) {m : Memory}, m.wf = true → (m.writeAll ls vs).wf = true
  | [], _, _, h => by simpa [Memory.writeAll] using h
  | _ :: _, [], _, h => by simpa [Memory.writeAll] using h
  | l :: ls, v :: vs, _, h => Memory.writeAll_wf ls vs (Memory.write_wf l v h)

/-- Writing several bytes leaves every other location alone. -/
theorem Memory.read_writeAll_other {a : Nat} : ∀ (ls : List Nat) (vs : List Byte) (m : Memory), a ∉ ls →
    (m.writeAll ls vs).read a = m.read a
  | [], _, _, _ => rfl
  | _ :: _, [], _, _ => rfl
  | l :: ls, v :: vs, m, h => by
    have h' : a ≠ l ∧ a ∉ ls := by simpa using h
    simp [Memory.writeAll, Memory.read_writeAll_other ls vs _ h'.2, h'.1]

/-- What was written at distinct locations is read back there. -/
theorem map_read_writeAll : ∀ (ls : List Nat) (vs : List Byte) (m : Memory), ls.Nodup → ls.length = vs.length →
    ls.map (m.writeAll ls vs).read = vs
  | [], [], _, _, _ => rfl
  | [], _ :: _, _, _, h => by simp at h
  | _ :: _, [], _, _, h => by simp at h
  | l :: ls, v :: vs, m, hn, hlen => by
    have hn' : l ∉ ls ∧ ls.Nodup := by simpa using hn
    have hl : ls.length = vs.length := by simpa using hlen
    simp [Memory.writeAll, Memory.read_writeAll_other ls vs _ hn'.1, map_read_writeAll ls vs _ hn'.2 hl]

/-! ## Byte order -/

@[simp] theorem bytesOf_length (v : DWord) (n : Nat) : (bytesOf v n).length = n := by
  induction n generalizing v with
  | zero => rfl
  | succ n ih => simp [bytesOf, ih]

/-- The number of the low `n` bytes of a value is the value modulo 2^(8n) (R51). -/
theorem littleEndian_bytesOf (n : Nat) (v : DWord) : littleEndian (bytesOf v n) = v.toNat % 256 ^ n := by
  induction n generalizing v with
  | zero => simp [bytesOf, littleEndian, Nat.mod_one]
  | succ n ih =>
    simp only [bytesOf, littleEndian, ih, BitVec.extractLsb'_toNat, BitVec.toNat_ushiftRight, Nat.shiftRight_eq_div_pow]
    have h := Nat.mod_mul (x := v.toNat) (a := 256) (b := 256 ^ n)
    norm_num [Nat.pow_succ'] at *
    omega

end Sys2Proof.Machine
end

