-- ==== Sys2Proof/Laws/Regs.lean ====
section
/-! SUPPORT. Register views and register codes (R20 to R23): a read after a write, and the codes as a numbering. -/

namespace Sys2Proof.Machine

@[simp] theorem Regs.get_set_same (g : Regs) (r : Reg32) (v : DWord) : (g.set r v).get r = v := by
  cases r <;> rfl

@[simp] theorem Regs.get_set_other (g : Regs) {r r' : Reg32} (v : DWord) (h : r' ≠ r) : (g.set r v).get r' = g.get r' := by
  cases r <;> cases r' <;> first | rfl | exact absurd rfl h

@[simp] theorem State.read32_write32_same (s : State) (r : Reg32) (v : DWord) : (s.write32 r v).read32 r = v := by
  simp [State.read32]

@[simp] theorem State.read32_write32_other (s : State) {r r' : Reg32} (v : DWord) (h : r' ≠ r) :
    (s.write32 r v).read32 r' = s.read32 r' := by
  simp [State.read32, h]

/-- The low half of a doubleword put together from two halves. -/
theorem low_half_append (a b : Word) : ((a ++ b : DWord)).extractLsb' 0 16 = b := by
  ext i hi
  simp only [BitVec.getElem_extractLsb', BitVec.getLsbD_append]
  have : i < 16 := hi
  simp [this]

/-- The high half of a doubleword put together from two halves. -/
theorem high_half_append (a b : Word) : ((a ++ b : DWord)).extractLsb' 16 16 = a := by
  ext i hi
  simp only [BitVec.getElem_extractLsb', BitVec.getLsbD_append]
  have : ¬ 16 + i < 16 := by omega
  simp [this, BitVec.getLsbD_eq_getElem hi]

@[simp] theorem State.read16_write16_same (s : State) (r : Reg16) (v : Word) : (s.write16 r v).read16 r = v := by
  simp [State.read16, State.write16, low_half_append]

/-- A write to a 16-bit name keeps bits 31 to 16 of its register (R23). -/
theorem State.write16_keeps_high (s : State) (r : Reg16) (v : Word) :
    ((s.write16 r v).read32 (parent16 r)).extractLsb' 16 16 = (s.read32 (parent16 r)).extractLsb' 16 16 := by
  simp [State.write16, high_half_append]

@[simp] theorem reg32_code32 (r : Reg32) : reg32 (code32 r) = r := by cases r <;> rfl

@[simp] theorem reg16_code16 (r : Reg16) : reg16 (code16 r) = r := by cases r <;> rfl

@[simp] theorem reg8_code8 (r : Reg8) : reg8 (code8 r) = r := by cases r <;> rfl

theorem code32_reg32 (c : BitVec 3) : code32 (reg32 c) = c := by revert c; decide

theorem code16_reg16 (c : BitVec 3) : code16 (reg16 c) = c := by revert c; decide

theorem code8_reg8 (c : BitVec 3) : code8 (reg8 c) = c := by revert c; decide

end Sys2Proof.Machine
end

