-- ==== Sys2Proof/Laws/Ops.lean ====
section
/-! SUPPORT. For each shared operation, what it does where it answers: the statements cite these and do not unfold the
operations. -/

namespace Sys2Proof.Machine

/-! ## `Translate` -/

@[simp] theorem translate_nil (q : TranslateQuery) : translate [] q = .location (q.offset + q.byte) := rfl

/-- The first row answers where it covers the query, the rows after it elsewhere. -/
theorem translate_cons (r : TranslateRow) (rows : List TranslateRow) (q : TranslateQuery) :
    translate (r :: rows) q = if rowCovers r q then rowAnswer r q else translate rows q := rfl

/-! ## Locations of an access -/

/-- Where every byte of an access has a location: as many locations as bytes, each the one `Translate` answers for its byte. -/
theorem locate_ok {s : State} {src : AddressSource} {off : Nat} {w : AccessWidth} {kd : AccessKind} :
    ∀ {n k : Nat} {ls : List Nat}, locate s src off w kd k n = .ok ls →
      ls.length = n ∧ ∀ j (hj : j < ls.length),
        translate s.launch.translate { source := src, offset := off, width := w, byte := k + j, kind := kd } = .location ls[j]
  | 0, k, ls, h => by
    simp only [locate, Except.ok.injEq] at h
    subst h; simp
  | n + 1, k, ls, h => by
    unfold locate at h
    split at h
    · cases h
    · rename_i l hl
      split at h
      · cases h
      · rename_i ls' hls
        have ih := locate_ok hls
        simp only [Except.ok.injEq] at h
        subst h
        refine ⟨by simp [ih.1], ?_⟩
        intro j hj
        cases j with
        | zero => simpa using hl
        | succ j =>
          have hj' : j < ls'.length := by simpa using hj
          have := ih.2 j hj'
          rw [show k + (j + 1) = k + 1 + j by omega]
          simpa using this

/-- Under the flat `Translate` the bytes of an access stand at its ascending offsets. -/
theorem locate_flat {s : State} (hflat : s.launch.translate = []) (src : AddressSource) (off : Nat) (w : AccessWidth)
    (kd : AccessKind) : ∀ n k : Nat, locate s src off w kd k n = .ok (List.range' (off + k) n)
  | 0, k => by simp [locate]
  | n + 1, k => by
    simp [locate, hflat, locate_flat hflat src off w kd n (k + 1), List.range'_succ, Nat.add_assoc]

/-- The locations of an access depend on the launch parameters and on `ip` (which an exception carries) only. -/
theorem locate_congr {s t : State} (hl : t.launch = s.launch) (hi : t.ip = s.ip) (src : AddressSource) (off : Nat)
    (w : AccessWidth) (kd : AccessKind) : ∀ n k : Nat, locate t src off w kd k n = locate s src off w kd k n
  | 0, _ => rfl
  | n + 1, k => by
    simp [locate, hl, locate_congr hl hi src off w kd n (k + 1), raiseException, hi]

/-! ## Memory accesses -/

/-- Where a load answers: every byte has a location, and the value is that of the bytes there, little-endian. -/
theorem memRead_ok {s : State} {src : AddressSource} {off : Nat} {w : AccessWidth} {v : DWord}
    (h : memRead s src off w = .ok v) :
    ∃ ls, locate s src off w .load 0 (accessBytes w) = .ok ls ∧ v = BitVec.ofNat 32 (littleEndian (ls.map s.mem.read)) := by
  unfold memRead at h
  split at h
  · cases h
  · rename_i ls hls
    exact ⟨ls, hls, by simpa using h.symm⟩

/-- Where an access cannot be located: the first byte that `Translate` faults, all bytes before it located, and its exception
(R215). -/
theorem locate_error {s : State} {src : AddressSource} {off : Nat} {w : AccessWidth} {kd : AccessKind} {x : Stop} :
    ∀ {n i : Nat}, locate s src off w kd i n = .error x →
      ∃ k e c, k < n ∧ (∀ j, j < k → ∃ l, translate s.launch.translate ⟨src, off, w, i + j, kd⟩ = .location l)
        ∧ translate s.launch.translate ⟨src, off, w, i + k, kd⟩ = .fault e c ∧ x = raiseException s e c
  | 0, _, h => by cases h
  | n + 1, i, h => by
    unfold locate at h
    split at h
    · rename_i e c he
      exact ⟨0, e, c, by omega, by simp, he, by simpa using h.symm⟩
    · rename_i l hl
      split at h
      · rename_i y hy
        cases h
        obtain ⟨k, e, c, hk, hj, he, hx⟩ := locate_error hy
        refine ⟨k + 1, e, c, by omega, ?_, by rw [show i + (k + 1) = i + 1 + k by omega]; exact he, hx⟩
        intro j hjk
        cases j with
        | zero => exact ⟨l, hl⟩
        | succ j => rw [show i + (j + 1) = i + 1 + j by omega]; exact hj j (by omega)
      · cases h

/-- Where a store answers: every byte has a location, none of them was fetched in this run, and the bytes of the value stand there. -/
theorem memWrite_ok {s t : State} {src : AddressSource} {off : Nat} {w : AccessWidth} {v : DWord}
    (h : memWrite s src off w v = .ok t) :
    ∃ ls, locate s src off w .store 0 (accessBytes w) = .ok ls ∧ (∀ l ∈ ls, l ∉ s.fetched)
      ∧ t = s.store ls (bytesOf v (accessBytes w)) := by
  unfold memWrite at h
  split at h
  · cases h
  · rename_i ls hls
    split at h
    · cases h
    · rename_i hf
      refine ⟨ls, hls, ?_, by simpa using h.symm⟩
      intro l hl hfl
      exact hf (List.any_eq_true.mpr ⟨l, hl, by simpa using hfl⟩)

/-- A store of bytes at locations none of which was fetched keeps the invariant. -/
theorem State.store_inv {s : State} {ls : List Nat} {vs : List Byte} (hs : s.inv) (hf : ∀ l ∈ ls, l ∉ s.fetched) :
    (s.store ls vs).inv := by
  obtain ⟨hm, hfe, hst, hd⟩ := hs
  refine ⟨Memory.writeAll_wf ls vs hm, hfe, Locations.addAll_wf hst, ?_⟩
  intro l hl hl'
  rcases Locations.mem_addAll.mp hl' with h | h
  · exact hf l h hl
  · exact hd l hl h

/-! ## The REG field -/

/-- Where REG names a register operand: the shape says so, a ModR/M byte stands, and the operand is the register of its REG code, of
the width the shape and the operand size give. -/
theorem regOperandOf_some {sh : Shape} {d : Decoded} {o : Operand} {w : AccessWidth} (h : regOperandOf sh d = some (o, w)) :
    ∃ m isByte, d.addressing.modrm = some m ∧ sh.regField = .register isByte ∧ o = .reg (regField m)
      ∧ w = if isByte then .byte else sizeWidth d.operandSize := by
  unfold regOperandOf at h
  split at h
  · rename_i m width hm hw
    simp only [Option.some.injEq, Prod.mk.injEq] at h
    unfold regFieldWidth at hw
    split at hw
    · rename_i isByte hr
      exact ⟨m, isByte, hm, hr, h.1.symm, by rw [← h.2]; simpa using hw.symm⟩
    · cases hw
  · cases h

/-! ## The stack -/

/-- Moving the stack pointer reaches the registers only. -/
theorem stackDown_eq (s : State) (n : Nat) : ∃ v, stackDown s n = s.write32 .esp v := by
  unfold stackDown
  split
  · exact ⟨_, rfl⟩
  · exact ⟨_, rfl⟩

theorem stackUp_eq (s : State) (n : Nat) : ∃ v, stackUp s n = s.write32 .esp v := by
  unfold stackUp
  split
  · exact ⟨_, rfl⟩
  · exact ⟨_, rfl⟩

/-- Where a push answers: the pointer is down and the value's bytes stand from it on, in SS. -/
theorem push_ok {s t : State} {size : Size} {v : DWord} (h : push s size v = .ok t) :
    ∃ ls, locate (stackDown s (sizeBytes size)) (.segment .ss) (stackOffset (stackDown s (sizeBytes size)))
        (sizeWidth size) .store 0 (accessBytes (sizeWidth size)) = .ok ls
      ∧ (∀ l ∈ ls, l ∉ s.fetched)
      ∧ t = (stackDown s (sizeBytes size)).store ls (bytesOf v (accessBytes (sizeWidth size))) := by
  obtain ⟨ls, h1, h2, h3⟩ := memWrite_ok h
  obtain ⟨w, hw⟩ := stackDown_eq s (sizeBytes size)
  refine ⟨ls, h1, ?_, h3⟩
  rw [hw] at h2
  simpa using h2

/-- Where a pop answers: the value read at the old pointer, and the pointer up. -/
theorem pop_ok {s t : State} {size : Size} {v : DWord} (h : pop s size = .ok (v, t)) :
    memRead s (.segment .ss) (stackOffset s) (sizeWidth size) = .ok v ∧ t = stackUp s (sizeBytes size) := by
  unfold pop at h
  split at h
  · cases h
  · rename_i w hw
    simp only [Except.ok.injEq, Prod.mk.injEq] at h
    obtain ⟨rfl, rfl⟩ := h
    exact ⟨hw, rfl⟩

/-! ## The instruction in progress -/

/-- A recorded prefix: no byte of its class stood in P, and P is all that changes. -/
theorem recordPrefix_next {q : PrefixByte} {s t : State} (h : recordPrefix q s = .next t) :
    holdsClass s.prefixes (prefixClass q) = false ∧ t = s.setPrefixes (recordByte s.prefixes q) := by
  unfold recordPrefix at h
  split at h
  · cases h
  · rename_i hc
    exact ⟨by simpa using hc, by simpa using h.symm⟩

/-- CMC completes only where no prefix is recorded, and then complements CF and advances `ip` by one. -/
theorem execCmc_next {s t : State} (h : execCmc s = .next t) :
    s.prefixes = noPrefixes ∧ t = (s.setCF (!s.cf)).advance 1 := by
  unfold execCmc at h
  split at h
  · rename_i hp
    exact ⟨hp, by simpa [complementCF] using h.symm⟩
  · cases h

/-- Every prefix row records its byte. -/
theorem exec_prefix {i : Instr} {q : PrefixByte} (h : prefixOfInstr i = some q) (s : State) : exec i s = recordPrefix q s := by
  cases i <;> simp only [prefixOfInstr, Option.some.injEq, reduceCtorEq] at h <;> subst h <;> rfl

/-- What an instruction can do where it answers a next state: CMC's effect, or a recorded prefix. -/
theorem exec_next {i : Instr} {s t : State} (h : exec i s = .next t) :
    (i = .cmc ∧ s.prefixes = noPrefixes ∧ t = (s.setCF (!s.cf)).advance 1)
      ∨ ∃ q, prefixOfInstr i = some q ∧ holdsClass s.prefixes (prefixClass q) = false
          ∧ t = s.setPrefixes (recordByte s.prefixes q) := by
  cases hq : prefixOfInstr i with
  | none =>
    have hi : i = .cmc := by cases i <;> simp_all [prefixOfInstr]
    subst hi
    exact .inl ⟨rfl, execCmc_next h⟩
  | some q =>
    rw [exec_prefix hq] at h
    exact .inr ⟨q, rfl, recordPrefix_next h⟩

end Sys2Proof.Machine
end

