-- ==== Sys2Proof/Laws/PerInstr.lean ====
section
/-! SUPPORT. One lemma per instruction of the table: its encoding is one byte, and the decoder reads that byte as the instruction's
canonical name. -/

namespace Sys2Proof.Laws.OneByte

open Sys2Proof.Machine

/-- The encoding of an instruction is one byte, which decodes to the instruction's canonical name. -/
def Statement (i : Instr) : Prop := ∃ b, encode i = [b] ∧ decodeByte b = .ok i.canonical

theorem cmc : Statement .cmc := ⟨0xF5, by decide, by decide⟩
theorem rep : Statement .rep := ⟨0xF3, by decide, by decide⟩
theorem repe : Statement .repe := ⟨0xF3, by decide, by decide⟩
theorem repne : Statement .repne := ⟨0xF2, by decide, by decide⟩
theorem lock : Statement .lock := ⟨0xF0, by decide, by decide⟩
theorem csOverride : Statement .csOverride := ⟨0x2E, by decide, by decide⟩
theorem ssOverride : Statement .ssOverride := ⟨0x36, by decide, by decide⟩
theorem dsOverride : Statement .dsOverride := ⟨0x3E, by decide, by decide⟩
theorem esOverride : Statement .esOverride := ⟨0x26, by decide, by decide⟩
theorem fsOverride : Statement .fsOverride := ⟨0x64, by decide, by decide⟩
theorem gsOverride : Statement .gsOverride := ⟨0x65, by decide, by decide⟩
theorem operandSizeOverride : Statement .operandSizeOverride := ⟨0x66, by decide, by decide⟩
theorem addressSizeOverride : Statement .addressSizeOverride := ⟨0x67, by decide, by decide⟩

end Sys2Proof.Laws.OneByte
end

