-- ==== Sys2Proof/Laws/Step.lean ====
section
/-! SUPPORT. What a fetch and a step can do where they answer. -/

namespace Sys2Proof.Machine

/-- A fetched byte: it stands in memory at a location that nothing was stored to in this run. -/
theorem fetchByte_ok {s : State} {k l : Nat} {b : Byte} (h : fetchByte s k = .ok (l, b)) :
    s.ip.toNat + k < 2 ^ 32 ∧ l ∉ s.stored ∧ s.mem.read l = b
      ∧ translate s.launch.translate
          { source := .segment .cs, offset := s.ip.toNat + k, width := .byte, byte := 0, kind := .fetch } = .location l := by
  unfold fetchByte at h
  split at h
  · cases h
  · rename_i hk
    split at h
    · cases h
    · rename_i l' hl'
      split at h
      · cases h
      · rename_i hst
        simp only [Except.ok.injEq, Prod.mk.injEq] at h
        obtain ⟨rfl, rfl⟩ := h
        exact ⟨by omega, by simpa using hst, rfl, hl'⟩

/-- What the fetch of a row answers: the byte after the recorded prefixes, decoded, and its location noted. -/
theorem fetchInstr_ok {s t : State} {i : Instr} (h : fetchInstr s = .ok (i, t)) :
    ∃ l b, fetchByte s (prefixCount s.prefixes) = .ok (l, b) ∧ decodeByte b = .ok i ∧ t = s.noteFetched l := by
  unfold fetchInstr at h
  split at h
  · cases h
  · rename_i l b hb
    split at h
    · rename_i j hj
      split at h
      · simp only [Except.ok.injEq, Prod.mk.injEq] at h
        exact ⟨l, b, hb, by rw [hj, h.1], h.2.symm⟩
      · split at h
        · cases h
        · simp only [Except.ok.injEq, Prod.mk.injEq] at h
          exact ⟨l, b, hb, by rw [hj, h.1], h.2.symm⟩
    · split at h <;> cases h

/-- What a step can do where it answers a next state: the run had not ended, a byte was fetched and decoded, and the row ran on the
state with the byte's location noted. -/
theorem step_next {s t : State} (h : step s = .next t) :
    s.final = false ∧ ∃ l b i, fetchByte s (prefixCount s.prefixes) = .ok (l, b) ∧ decodeByte b = .ok i
      ∧ exec i (s.noteFetched l) = .next t := by
  unfold step at h
  split at h
  · cases h
  · rename_i hf
    split at h
    · rename_i e _
      cases e <;> cases h
    · rename_i i u hu
      obtain ⟨l, b, h1, h2, rfl⟩ := fetchInstr_ok hu
      exact ⟨by simpa using hf, l, b, i, h1, h2, h⟩

end Sys2Proof.Machine
end

