-- ==== Sys2Proof/Tests/Slice0.lean ====
section
/-! SUPPORT. The model's own tests: words written out from the spec's encoding, the vectors of 95_test_vectors.md, ill-formed terms,
and a witness for the hypotheses of each statement. -/

namespace Sys2Proof.Tests

open Sys2Proof.Machine

/-! ## Helpers -/

/-- The next state of an outcome, where it has one. -/
def stateOf : Host.Outcome State Fault Refusal → Option State
  | .next s => some s
  | _ => none

/-- What an outcome stopped with, where it stopped. -/
def stopOf : Host.Outcome State Fault Refusal → Option Stop
  | .next _ => none
  | .fault f => some (.fault f)
  | .refused r => some (.refusal r)

/-- The value of a computation, where it has one. -/
def valueOf {α : Type} : Except Stop α → Option α
  | .ok a => some a
  | .error _ => none

/-- A state with bytes of memory, `ip` 100H and a carry flag. -/
def coded (bytes : List Byte) (cf : Bool) : State :=
  { State.reset with ip := 0x100, cf := cf, mem := (List.range' 0x100 bytes.length).zip bytes }

/-- The registers of section 2.2 of 95_test_vectors.md. -/
def regs16 : State :=
  { State.reset with regs := { State.reset.regs with ebx := 0x1000, esi := 0x20, edi := 0x300, ebp := 0x8000 } }

/-- The registers of section 2.3 of 95_test_vectors.md. -/
def regs32 : State :=
  { State.reset with
    regs := { eax := 0x1000, ecx := 0x10, edx := 0x80000000, ebx := 0x2000, esp := 0xFFF0, ebp := 0x7000, esi := 0xFFFFFFFF, edi := 4 } }

/-- A state with a stack pointer, a stack address size and memory. -/
def stacked (size : Size) (esp : DWord) (mem : Memory) : State :=
  { State.reset with
    regs := { State.reset.regs with esp := esp }, mem := mem, launch := { Launch.reset with stackAddrSize := size } }

/-- A 386 TSS at 0 with the bitmap pointer 68H at offset 66H and two bitmap bytes at an offset (section 2.7). -/
def ioState (bsa : Nat) (b0 b1 : Byte) : State :=
  { State.reset with
    mem := [(0x66, 0x68), (0x67, 0x00), (bsa, b0), (bsa + 1, b1)], launch := { Launch.reset with tssType := .tss386 } }

/-- Launch parameters with one opcode 01 that has a ModR/M byte, an address size, and an immediate of the operand size. -/
def shaped (size : Size) (imm16 imm32 : Nat) : Launch :=
  { Launch.reset with
    defaultAddressSize := size
    opcodeShape := [(0x01, .oneByte { cmcShape with hasModRM := true, immBytes16 := imm16, immBytes32 := imm32 })] }

/-- A launch whose `Translate` faults on the second byte of an access at the offsets 0 to 9. -/
def faultingSecondByte : Launch :=
  { Launch.reset with stackAddrSize := .s32, translate := [⟨none, 0, 9, none, some 1, none, .fault .pf none⟩] }

/-- A decoded instruction with an operand size and a ModR/M byte with a disp8, or without one. -/
def regSample (size : Size) (m : Option Byte) : Decoded :=
  { prefixes := noPrefixes, opcode := [0x01], addressing := { modrm := m, sib := none, disp := [0] }, imm := [],
    operandSize := size, addressSize := .s16, length := 3 }

/-- The fields of a decoded instruction that section 2.1's table lists. -/
def fields (p : Launch) (bytes : List Byte) : Option (Option Byte × Option Byte × List Byte × Nat) :=
  match decodeBytes p bytes with
  | .ok d => some (d.addressing.modrm, d.addressing.sib, d.addressing.disp, d.length)
  | .error _ => none

/-! ## Decoding: each row's byte from the spec (R71, R72, R73, R93), rejections, well-formedness -/

theorem test_decode_cmc : decode [0b11110101] = .ok (.cmc, []) := by decide
theorem test_decode_rep : decode [0b11110011] = .ok (.rep, []) := by decide
theorem test_encode_repe : encode .repe = [0b11110011] := by decide
theorem test_decode_repne : decode [0b11110010] = .ok (.repne, []) := by decide
theorem test_decode_lock : decode [0b11110000] = .ok (.lock, []) := by decide
theorem test_decode_cs : decode [0b00101110] = .ok (.csOverride, []) := by decide
theorem test_decode_ss : decode [0b00110110] = .ok (.ssOverride, []) := by decide
theorem test_decode_ds : decode [0b00111110] = .ok (.dsOverride, []) := by decide
theorem test_decode_es : decode [0b00100110] = .ok (.esOverride, []) := by decide
theorem test_decode_fs : decode [0b01100100] = .ok (.fsOverride, []) := by decide
theorem test_decode_gs : decode [0b01100101] = .ok (.gsOverride, []) := by decide
theorem test_decode_opsize : decode [0b01100110] = .ok (.operandSizeOverride, []) := by decide
theorem test_decode_addrsize : decode [0b01100111] = .ok (.addressSizeOverride, []) := by decide

/-- V9, V10, V11: bytes the source does not show. -/
theorem test_decode_unshown :
    [[0x90], [0x0F, 0x00], [0xF4]].map decode = List.replicate 3 (.error (.reject .opcodeNotShown)) := by decide

theorem test_tableWord : decodeTableWord 8 0xF5 = some .cmc ∧ decodeTableWord 8 0x65 = some .gsOverride
    ∧ decodeTableWord 8 0x00 = none := by decide

/-- Exactly eleven byte values are prefixes (R73). -/
theorem test_eleven_prefixes :
    ((List.range 256).filter (fun n => (prefixOfByte (BitVec.ofNat 8 n)).isSome)).length = 11 := by decide

theorem test_repe_is_second_name : Instr.wellFormed .repe = false ∧ Instr.wellFormed .rep = true := by decide

/-- A well-formed whole instruction (R98's bytes) and one ill-formed variant for each check. -/
def sampleDecoded : Decoded :=
  { prefixes := noPrefixes, opcode := [0x01], addressing := { modrm := some 0x44, sib := some 0x8D, disp := [0x10] }, imm := [],
    operandSize := .s16, addressSize := .s32, length := 4 }

theorem test_wellFormed_whole : sampleDecoded.wellFormed (shaped .s32 0 0) = true := by decide

theorem test_illFormed_whole :
    [ { sampleDecoded with opcode := [0x02] }, { sampleDecoded with opcode := [] }, { sampleDecoded with opcode := [0x66] },
      { sampleDecoded with addressing := { sampleDecoded.addressing with sib := none } },
      { sampleDecoded with addressing := { sampleDecoded.addressing with disp := [] } },
      { sampleDecoded with addressing := { modrm := none, sib := none, disp := [] } },
      { sampleDecoded with imm := [0] }, { sampleDecoded with operandSize := .s32 }, { sampleDecoded with addressSize := .s16 },
      { sampleDecoded with length := 5 } ].all (fun d => !d.wellFormed (shaped .s32 0 0)) = true := by decide

theorem test_illFormed_prefix_opcode :
    ({ sampleDecoded with opcode := [0x66] } : Decoded).wellFormed
      { shaped .s32 0 0 with opcodeShape := [(0x66, .oneByte { cmcShape with hasModRM := true })] } = false := by decide

theorem test_illFormed_too_long : sampleDecoded.wellFormed { shaped .s32 0 0 with maxInstrLength := 3 } = false := by decide

/-- V17 to V25 (address sizes as listed there). -/
theorem test_fields_V17_V25 :
    [ fields (shaped .s32 0 0) [0x01, 0x44, 0x8D, 0x10], fields (shaped .s16 0 0) [0x01, 0x44, 0x8D],
      fields (shaped .s16 0 0) [0x01, 0x06, 0x34, 0x12], fields (shaped .s32 0 0) [0x01, 0x05, 0x78, 0x56, 0x34, 0x12],
      fields (shaped .s32 0 0) [0x01, 0x04, 0x25, 0x00, 0x01, 0x00, 0x00], fields (shaped .s32 0 0) [0x01, 0x04, 0x24],
      fields (shaped .s32 0 0) [0x01, 0xC4], fields (shaped .s16 0 0) [0x01, 0x04],
      fields (shaped .s32 0 0) [0x01, 0x84, 0x8D, 0x00, 0x00, 0x01, 0x00] ]
    = [ some (some 0x44, some 0x8D, [0x10], 4), some (some 0x44, none, [0x8D], 3), some (some 0x06, none, [0x34, 0x12], 4),
        some (some 0x05, none, [0x78, 0x56, 0x34, 0x12], 6), some (some 0x04, some 0x25, [0x00, 0x01, 0x00, 0x00], 7),
        some (some 0x04, some 0x24, [], 3), some (some 0xC4, none, [], 2), some (some 0x04, none, [], 2),
        some (some 0x84, some 0x8D, [0x00, 0x00, 0x01, 0x00], 7) ] := by decide

/-- Section 2.1, length limit: sixteen bytes are too long, the fifteen without F3 decode. -/
theorem test_length_limit :
    decodeBytes (shaped .s16 2 4)
      [0xF3, 0xF0, 0x2E, 0x66, 0x67, 0x01, 0x84, 0x8D, 0, 0, 1, 0, 9, 9, 9, 9] = .error (.reject .tooLong)
    ∧ (fields (shaped .s16 2 4) [0xF0, 0x2E, 0x66, 0x67, 0x01, 0x84, 0x8D, 0, 0, 1, 0, 9, 9, 9, 9]).isSome = true := by decide

/-- V8: five prefixes, one of each class; V5, V6, V7: a class twice. -/
theorem test_prefix_classes :
    fields Launch.reset [0xF3, 0xF0, 0x2E, 0x66, 0x67, 0xF5] = some (none, none, [], 6)
    ∧ [[0xF3, 0xF2, 0xF5], [0x66, 0x66, 0xF5], [0x2E, 0x36, 0xF5]].map (decodeBytes Launch.reset)
      = List.replicate 3 (.error (.reject .repeatedPrefixClass)) := by decide

/-- A two-byte opcode under a launch that shows one (R75). -/
theorem test_two_byte_opcode :
    fields { Launch.reset with opcodeShape := [(0x0F, .twoByte [(0xA0, cmcShape)])] } [0x0F, 0xA0] = some (none, none, [], 2) := by
  decide

/-- V12 to V16 (R95). -/
theorem test_size_attributes :
    operandSizeOf Launch.reset noPrefixes = .s16 ∧ operandSizeOf Launch.reset { noPrefixes with operandSize := true } = .s32
    ∧ addressSizeOf Launch.reset { noPrefixes with addressSize := true } = .s32
    ∧ operandSizeOf { Launch.reset with defaultOperandSize := .s32 } { noPrefixes with operandSize := true } = .s16 := by decide

/-! ## Steps -/

/-- M1, M2 (R170). -/
theorem test_cmc_step : (stateOf (step (coded [0xF5] false))).map (fun t => (t.cf, t.ip, t.mem)) = some (true, 0x101, [(0x100, 0xF5)])
    ∧ (stateOf (step (coded [0xF5] true))).map (fun t => (t.cf, t.ip)) = some (false, 0x101) := by decide

/-- M3, M4: a fetch fault; a prefix before CMC (two steps). -/
theorem test_cmc_fault :
    stopOf (step { coded [0xF5] false with
      launch := { Launch.reset with translate := [⟨none, 0x100, 0x100, none, none, some .fetch, .fault .pf (some 4)⟩] } })
    = some (.fault (.exception .pf 14 (some 4) 0x100)) := by decide

theorem test_prefix_then_cmc :
    (stateOf (step (coded [0xF2, 0xF5] false))).map (fun t => (t.ip, t.prefixes.repeating, t.fetched))
      = some (0x100, some .f2, [0x100])
    ∧ stopOf (core.run 2 (coded [0xF2, 0xF5] false)) = some (.refusal .prefixOnCMC) := by decide

theorem test_rep_step : (stateOf (exec .rep State.reset)).map (·.prefixes) = some { noPrefixes with repeating := some .f3 } := by decide
theorem test_repe_step : (stateOf (exec .repe State.reset)).map (·.prefixes) = some { noPrefixes with repeating := some .f3 } := by decide
theorem test_repne_step : (stateOf (exec .repne State.reset)).map (·.prefixes) = some { noPrefixes with repeating := some .f2 } := by decide
theorem test_lock_step : (stateOf (exec .lock State.reset)).map (·.prefixes) = some { noPrefixes with lock := true } := by decide
theorem test_cs_step : (stateOf (exec .csOverride State.reset)).map (·.prefixes.segment) = some (some .cs) := by decide
theorem test_ss_step : (stateOf (exec .ssOverride State.reset)).map (·.prefixes.segment) = some (some .ss) := by decide
theorem test_ds_step : (stateOf (exec .dsOverride State.reset)).map (·.prefixes.segment) = some (some .ds) := by decide
theorem test_es_step : (stateOf (exec .esOverride State.reset)).map (·.prefixes.segment) = some (some .es) := by decide
theorem test_fs_step : (stateOf (exec .fsOverride State.reset)).map (·.prefixes.segment) = some (some .fs) := by decide
theorem test_gs_step : (stateOf (exec .gsOverride State.reset)).map (·.prefixes.segment) = some (some .gs) := by decide
theorem test_opsize_step : (stateOf (exec .operandSizeOverride State.reset)).map (·.prefixes.operandSize) = some true := by decide
theorem test_addrsize_step : (stateOf (exec .addressSizeOverride State.reset)).map (·.prefixes.addressSize) = some true := by decide

/-- Every row placed at reset runs first (the host's question). -/
theorem test_placed_rows :
    [0xF5, 0xF3, 0xF2, 0xF0, 0x2E, 0x36, 0x3E, 0x26, 0x64, 0x65, 0x66, 0x67].all
      (fun w => (stateOf (step (State.reset.withFetchWord 8 w))).isSome) = true := by decide

/-- Program 5 (b): the byte 90 is refused; a known shape without an instruction page is refused by its own name; the run ends at
`end_ip` (R239). -/
theorem test_refusals :
    stopOf (step (coded [0x90] false)) = some (.refusal .opcodeNotShown)
    ∧ stopOf (step { coded [0x01, 0xC4] false with launch := shaped .s32 0 0 }) = some (.refusal (.noInstructionPage [0x01]))
    ∧ stopOf (step { coded [0xF5] false with launch := { Launch.reset with endIp := some 0x100 } }) = some (.refusal .runEnded)
    ∧ stopOf (step { coded [0xF5] false with launch := { Launch.reset with maxInstrLength := 0 } }) = some (.refusal .tooLong)
    ∧ stopOf (step { coded [0xF5] false with stored := [0x100] }) = some (.refusal .fetchOfStored)
    ∧ stopOf (step State.reset) = some (.refusal .opcodeNotShown) := by decide

/-! ## Effective addresses: A1 to A20 and B1 to B27 -/

theorem test_ea16 :
    [ operand16 regs16 none 0x00 0, operand16 regs16 none 0x01 0, operand16 regs16 none 0x02 0, operand16 regs16 none 0x03 0,
      operand16 regs16 none 0x04 0, operand16 regs16 none 0x05 0, operand16 regs16 none 0x06 (dispValue16 [0x34, 0x12]),
      operand16 regs16 none 0x07 0, operand16 regs16 none 0x40 (dispValue16 [0x7F]), operand16 regs16 none 0x40 (dispValue16 [0x80]),
      operand16 regs16 none 0x46 (dispValue16 [0xFE]), operand16 regs16 none 0x47 (dispValue16 [0xFF]),
      operand16 regs16 none 0x80 (dispValue16 [0x00, 0xF0]), operand16 regs16 none 0x82 (dispValue16 [0x00, 0x80]),
      operand16 regs16 none 0x83 (dispValue16 [0x34, 0x12]), operand16 regs16 none 0x86 (dispValue16 [0x00, 0x80]),
      operand16 regs16 none 0x9E (dispValue16 [0xFF, 0xFF]), operand16 regs16 none 0xC0 0, operand16 regs16 none 0xFF 0,
      operand16 regs16 (some .es) 0x02 0 ]
    = [ .mem .ds 0x1020, .mem .ds 0x1300, .mem .ss 0x8020, .mem .ss 0x8300, .mem .ds 0x20, .mem .ds 0x300, .mem .ds 0x1234,
        .mem .ds 0x1000, .mem .ds 0x109F, .mem .ds 0xFA0, .mem .ss 0x7FFE, .mem .ds 0xFFF, .mem .ds 0x20, .mem .ss 0x20,
        .mem .ss 0x9534, .mem .ss 0, .mem .ss 0x7FFF, .reg 0, .reg 7, .mem .es 0x8020 ] := by decide

theorem test_ea32_no_sib :
    [ operand32 regs32 none 0x00 0 0, operand32 regs32 none 0x03 0 0, operand32 regs32 none 0x05 0 (dispValue32 [0x78, 0x56, 0x34, 0x12]),
      operand32 regs32 none 0x06 0 0, operand32 regs32 none 0x40 0 (dispValue32 [0x7F]), operand32 regs32 none 0x40 0 (dispValue32 [0x80]),
      operand32 regs32 none 0x45 0 (dispValue32 [0xFC]), operand32 regs32 none 0x43 0 (dispValue32 [0x10]),
      operand32 regs32 none 0x86 0 (dispValue32 [2, 0, 0, 0]), operand32 regs32 none 0x85 0 (dispValue32 [0, 0, 0, 0x80]),
      operand32 regs32 none 0xC4 0 0, operand32 regs32 (some .fs) 0x45 0 (dispValue32 [0xFC]) ]
    = [ .mem .ds 0x1000, .mem .ds 0x2000, .mem .ds 0x12345678, .mem .ds 0xFFFFFFFF, .mem .ds 0x107F, .mem .ds 0xF80, .mem .ss 0x6FFC,
        .mem .ds 0x2010, .mem .ds 1, .mem .ss 0x80007000, .reg 4, .mem .fs 0x6FFC ] := by decide

theorem test_ea32_sib :
    [ operand32 regs32 none 0x04 0x24 0, operand32 regs32 none 0x04 0x64 0, operand32 regs32 none 0x04 0xE4 0,
      operand32 regs32 none 0x04 0x88 0, operand32 regs32 none 0x04 0x53 0, operand32 regs32 none 0x04 0x99 0,
      operand32 regs32 none 0x04 0xF3 0, operand32 regs32 none 0x04 0x25 0x100, operand32 regs32 none 0x04 0x8D 0x100,
      operand32 regs32 none 0x04 0x2D 8, operand32 regs32 none 0x44 0x8D 0x10, operand32 regs32 none 0x84 0x8D 0x10000,
      operand32 regs32 none 0x44 0x24 (dispValue32 [0xF8]), operand32 regs32 none 0x44 0x6C 4, operand32 regs32 none 0x04 0x3E 0 ]
    = [ .mem .ss 0xFFF0, .mem .ss 0xFFF0, .mem .ss 0xFFF0, .mem .ds 0x1040, .mem .ds 0x2000, .mem .ds 0x8010, .mem .ds 0x1FF8,
        .mem .ds 0x100, .mem .ds 0x140, .mem .ds 0x7008, .mem .ss 0x7050, .mem .ss 0x17040, .mem .ss 0xFFE8, .mem .ss 0x1DFF4,
        .mem .ds 3 ] := by decide

/-- The operand of a decoded instruction: R98's bytes with B21's registers. -/
theorem test_operandOf : operandOf regs32 sampleDecoded = some (.mem .ss 0x7050) := by decide

/-- R78's example 48 has REG 001: CL, CX or ECX as `/r`, 1 as `/digit` (R79, R20 to R22). -/
theorem test_reg_field :
    [ regOperandOf { cmcShape with hasModRM := true, regField := .register true } (regSample .s16 (some 0x48)),
      regOperandOf { cmcShape with hasModRM := true, regField := .register false } (regSample .s16 (some 0x48)),
      regOperandOf { cmcShape with hasModRM := true, regField := .register false } (regSample .s32 (some 0x48)),
      regOperandOf { cmcShape with hasModRM := true, regField := .digit } (regSample .s32 (some 0x48)) ]
    = [some (.reg 1, .byte), some (.reg 1, .word), some (.reg 1, .dword), none]
    ∧ [reg8 1, reg8 7] = [.cl, .bh] ∧ reg16 1 = .cx ∧ reg32 1 = .ecx
    ∧ opcodeDigit { cmcShape with hasModRM := true, regField := .digit } (regSample .s32 (some 0x48)) = some 1 := by decide

/-! ## Push, Pop: P1 to P10 -/

theorem test_push :
    [ valueOf (push (stacked .s16 0xABCD0100 []) .s16 0x1234), valueOf (push (stacked .s16 0x00010004 []) .s32 0xAABBCCDD),
      valueOf (push (stacked .s32 0x1000 []) .s16 0xBEEF), valueOf (push (stacked .s32 0x1000 []) .s32 0x11223344),
      valueOf (push (stacked .s16 0x00070000 []) .s16 0x5566), valueOf (push (stacked .s32 0 []) .s32 0x01020304) ].map
      (fun o => o.map (fun t => (t.regs.esp, t.mem)))
    = [ some (0xABCD00FE, [(0xFE, 0x34), (0xFF, 0x12)]), some (0x00010000, [(0, 0xDD), (1, 0xCC), (2, 0xBB), (3, 0xAA)]),
        some (0xFFE, [(0xFFE, 0xEF), (0xFFF, 0xBE)]), some (0xFFC, [(0xFFC, 0x44), (0xFFD, 0x33), (0xFFE, 0x22), (0xFFF, 0x11)]),
        some (0x0007FFFE, [(0xFFFE, 0x66), (0xFFFF, 0x55)]),
        some (0xFFFFFFFC, [(0xFFFFFFFC, 4), (0xFFFFFFFD, 3), (0xFFFFFFFE, 2), (0xFFFFFFFF, 1)]) ] := by decide

theorem test_pop :
    [ valueOf (pop (stacked .s16 0x0007FFFE [(0xFFFE, 0x34), (0xFFFF, 0x12)]) .s16),
      valueOf (pop (stacked .s32 0xFFC [(0xFFC, 0x44), (0xFFD, 0x33), (0xFFE, 0x22), (0xFFF, 0x11)]) .s32),
      valueOf (pop (stacked .s32 0xFFFFFFFE [(0xFFFFFFFE, 0xEF), (0xFFFFFFFF, 0xBE)]) .s16),
      valueOf (pop (stacked .s16 0xFC [(0xFC, 0xDD), (0xFD, 0xCC), (0xFE, 0xBB), (0xFF, 0xAA)]) .s32) ].map
      (fun o => o.map (fun x => (x.1, x.2.regs.esp)))
    = [ some (0x1234, 0x00070000), some (0x11223344, 0x1000), some (0xBEEF, 0), some (0xAABBCCDD, 0x100) ] := by decide

/-- P12: a store that faults. -/
theorem test_push_fault :
    (match push { stacked .s32 0x1000 [] with
        launch := { Launch.reset with
          stackAddrSize := .s32, translate := [⟨some (.segment .ss), 0, 0xFFFF, none, none, some .store, .fault .ss none⟩] } } .s32 1 with
      | .error e => some e
      | .ok _ => none) = some (.fault (.exception .ss 12 none 0)) := by decide

/-! ## Bit addressing: T1 to T15 -/

theorem test_bit_register :
    valueOf (readBit { State.reset with regs := { State.reset.regs with eax := 0x00200000 } } (.reg32 .eax 21)) = some true
    ∧ valueOf (readBit { State.reset with regs := { State.reset.regs with eax := 0x00200000 } } (.reg32 .eax 20)) = some false
    ∧ valueOf (readBit { State.reset with regs := { State.reset.regs with eax := 0x80000000 } } (.reg32 .eax 31)) = some true := by decide

theorem test_bit_memory :
    ([0, 7, 8, 13, 21, -1, -8, -9, -16, 0x7FFFFFFF, 0x80000000] : List DWord).map
        (fun o => (bitByteOffset .s32 0x1000 o, (bitNumber o).val))
    = [(0x1000, 0), (0x1000, 7), (0x1001, 0), (0x1001, 5), (0x1002, 5), (0xFFF, 7), (0xFFF, 0), (0xFFE, 7), (0xFFE, 0),
       (0x10000FFF, 7), (0xF0001000, 0)] := by decide

/-! ## I-O-Permission: I1 to I13 -/

theorem test_io_permission :
    [ valueOf (ioPermission (ioState 0xE7 0x00 0xFF) 0x3F9 .byte), valueOf (ioPermission (ioState 0xE7 0x02 0x00) 0x3F9 .byte),
      valueOf (ioPermission (ioState 0xE7 0x7F 0xFF) 0x3FF .byte), valueOf (ioPermission (ioState 0xE7 0x7F 0xFE) 0x3FF .word),
      valueOf (ioPermission (ioState 0xE7 0x00 0x01) 0x3FF .word), valueOf (ioPermission (ioState 0xE7 0x7F 0xF8) 0x3FF .dword),
      valueOf (ioPermission (ioState 0xE7 0x00 0x04) 0x3FF .dword), valueOf (ioPermission (ioState 0x68 0xF0 0xFF) 0 .dword),
      valueOf (ioPermission (ioState 0x68 0x0F 0xFF) 4 .dword), valueOf (ioPermission (ioState 0x68 0x1F 0xFE) 5 .dword),
      valueOf (ioPermission (ioState 0x2067 0x10 0x00) 0xFFFC .dword), valueOf (ioPermission (ioState 0x74 0x00 0x00) 0x64 .byte),
      valueOf (ioPermission State.reset 0x64 .byte) ]
    = [some true, some false, some true, some true, some false, some true, some false, some true, some true, some true, some false,
       some true, some false] := by decide

/-- S5: the written form of an exception. -/
theorem test_exception_text : exceptionText .gp (some 0) = "#GP(0)" := by decide

theorem test_cmps : cmpsOperandSize .cmpsd .s16 = .s32 := by decide

/-- S1, S8: the recorded clock counts. -/
theorem test_clocks : clocksFor cmcClocks false = 2 ∧ taskSwitchClocks .tss386vm1 .tss286 = 231 := by decide

/-! ## The memory form -/

theorem test_memory_form : Memory.wf State.reset.mem = true ∧ Memory.wf [(3, 0), (3, 1)] = false ∧ Memory.wf [(4, 0), (3, 1)] = false
    ∧ Memory.wf [(3, 0)] = false ∧ Memory.write [(1, 7), (5, 9)] 3 8 = [(1, 7), (3, 8), (5, 9)]
    ∧ Memory.write [(1, 7), (5, 9)] 5 0 = [(1, 7)] := by decide

/-! ## Witnesses: a state and operands that meet the hypotheses of each statement -/

/-- CmcComplementsTheCarryFlag, CmcFrame: no prefix (the effect, twice), a prefix, a fetch that stops. -/
theorem witness_cmc : State.reset.prefixes = noPrefixes
    ∧ exec .cmc State.reset = .next (((State.reset.setCF true).advance 1))
    ∧ exec .cmc ((State.reset.setCF true).advance 1) = .next ((((State.reset.setCF true).advance 1).setCF false).advance 1)
    ∧ (State.reset.setPrefixes { noPrefixes with addressSize := true }).prefixes ≠ noPrefixes
    ∧ (State.reset.store [0] [1]).final = false
    ∧ fetchByte (State.reset.store [0] [1]) (prefixCount (State.reset.store [0] [1]).prefixes) = .error (.refusal .fetchOfStored) :=
  ⟨rfl, rfl, rfl, by decide, rfl, rfl⟩

/-- PrefixBeforeCmcIsRefused, PrefixRowsFrame: a prefix row that answers. -/
theorem witness_prefix_row : Instr.lock ≠ .cmc ∧ exec .lock State.reset = .next (State.reset.setPrefixes { noPrefixes with lock := true }) :=
  ⟨by decide, rfl⟩

/-- The four recording statements: the class is free beside four recorded classes, for each class. -/
theorem witness_classes_free :
    (State.reset.setPrefixes ⟨none, true, some .gs, true, true⟩).prefixes.repeating = none
    ∧ (State.reset.setPrefixes ⟨some .f2, false, some .gs, true, true⟩).prefixes.lock = false
    ∧ (State.reset.setPrefixes ⟨some .f3, true, none, true, true⟩).prefixes.segment = none
    ∧ (State.reset.setPrefixes ⟨some .f3, true, some .cs, false, true⟩).prefixes.operandSize = false
    ∧ (State.reset.setPrefixes ⟨some .f3, true, some .cs, true, false⟩).prefixes.addressSize = false := by decide

/-- SegmentOverridesAreRecorded, last clause: a set with an override. -/
theorem witness_override_set : ({ noPrefixes with segment := some .fs } : PrefixSet).segment = some .fs := rfl

/-- SecondPrefixOfAClassIsRefused: F2 recorded, F3 to come. -/
theorem witness_second_prefix : prefixOfInstr .rep = some (.repeating .f3)
    ∧ holdsClass (State.reset.setPrefixes { noPrefixes with repeating := some .f2 }).prefixes (prefixClass (.repeating .f3)) = true := by
  decide

/-- RowsDecodeBack. -/
theorem witness_row_wellFormed : Instr.wellFormed .addressSizeOverride = true := by decide

/-- PrefixOrderIsFreeAndRepetitionRefused: a class twice; five classes in two orders. -/
theorem witness_prefix_lists :
    ¬ (([.segment .cs, .lock, .segment .ss] : List PrefixByte).map prefixClass).Nodup
    ∧ (([.repeating .f3, .lock, .segment .cs, .operandSize, .addressSize] : List PrefixByte).map prefixClass).Nodup
    ∧ ([.repeating .f3, .lock, .segment .cs, .operandSize, .addressSize] : List PrefixByte).Perm
        [.addressSize, .operandSize, .segment .cs, .lock, .repeating .f3] := by decide

/-- WholeInstructionsDecodeBack, DecodedFieldsAreTheBytes, LengthIsTheSumOfTheFields. -/
theorem witness_whole : sampleDecoded.wellFormed (shaped .s32 0 0) = true
    ∧ decodeBytes (shaped .s32 0 0) (encodeWhole sampleDecoded) = .ok sampleDecoded := by decide

/-- StepRunsTheDecodedInstruction: a byte at `ip` that decodes, within the length limit and over it. -/
theorem witness_step : (coded [0xF5] false).final = false
    ∧ fetchByte (coded [0xF5] false) (prefixCount (coded [0xF5] false).prefixes) = .ok (0x100, 0xF5)
    ∧ decodeByte 0xF5 = .ok .cmc
    ∧ { coded [0xF5] false with launch := { Launch.reset with maxInstrLength := 0 } }.launch.maxInstrLength < 0 + 1 :=
  ⟨rfl, rfl, rfl, by decide⟩

/-- PlacedRowRunsFirst. -/
theorem witness_placed : Instr.wellFormed .lock = true ∧ encode .lock = [0xF0] := by decide

/-- UnshownOpcodesAreRefused. -/
theorem witness_unshown : (coded [0x90] false).final = false
    ∧ fetchByte (coded [0x90] false) (prefixCount (coded [0x90] false).prefixes) = .ok (0x100, 0x90)
    ∧ prefixOfByte 0x90 = none ∧ (0x90 : Byte) ≠ 0xF5 ∧ lookupByte 0x90 (coded [0x90] false).launch.opcodeShape = none :=
  ⟨rfl, rfl, by decide, by decide, rfl⟩

/-- MachineFollowsTheWholeDecoder: a refusal, CMC after a prefix, and an opcode with a shape only. -/
theorem witness_machine_decoder : (coded [0xF0, 0xF5] false).prefixes = noPrefixes ∧ (coded [0xF0, 0xF5] false).final = false
    ∧ (valueOf (decodeAt (coded [0xF0, 0xF5] false))).map (fun d => (d.opcode, d.length)) = some ([0xF5], 2)
    ∧ decodeAt (coded [0x66, 0x66] false) = .error (.refusal .repeatedPrefixClass)
    ∧ (valueOf (decodeAt { coded [0x01, 0xC4] false with launch := shaped .s32 0 0 })).map (·.opcode) = some [0x01] := by decide

/-- StepKeepsTheInvariant, StepFrame: a state with the invariant whose step answers. -/
theorem witness_invariant : (coded [0xF5] false).inv
    ∧ step (coded [0xF5] false) = .next ((((coded [0xF5] false).noteFetched 0x100).setCF true).advance 1) :=
  ⟨⟨by decide, by decide, by decide, by decide⟩, rfl⟩

/-- SixStepsCompleteAnInstruction: six steps that answer. -/
theorem witness_six_steps : (stateOf (core.run 6 (coded [0xF5, 0xF5, 0xF5, 0xF5, 0xF5, 0xF5] false))).map (·.ip) = some 0x106 := by decide

/-- ExceptionsComeFromTranslate: a step that ends in an exception. -/
theorem witness_exception :
    step { coded [0xF5] false with
      launch := { Launch.reset with translate := [⟨some (.segment .cs), 0, 0x100, some .byte, none, some .fetch, .fault .gp (some 0)⟩] } }
    = .fault (.exception .gp 13 (some 0) 0x100) := rfl

/-- FetchAcrossTheTopIsRefused: the last offset with one prefix recorded. -/
theorem witness_top :
    ({ State.reset with ip := 0xFFFFFFFF, prefixes := { noPrefixes with lock := true } } : State).final = false
    ∧ 2 ^ 32 ≤ ({ State.reset with ip := 0xFFFFFFFF, prefixes := { noPrefixes with lock := true } } : State).ip.toNat
        + prefixCount ({ State.reset with ip := 0xFFFFFFFF, prefixes := { noPrefixes with lock := true } } : State).prefixes := by
  decide

/-- RunEndsExactlyAtEndIp: a state at its end and one that is not. -/
theorem witness_end : ({ State.reset with launch := { Launch.reset with endIp := some 0 } } : State).final = true
    ∧ State.reset.final = false := by decide

/-- RegisterViewsAlias: the codes and bits at the ends of their ranges. -/
theorem witness_views : (0 : BitVec 3).toNat < 4 ∧ (3 : BitVec 3).toNat < 4 ∧ Reg32.esp ≠ reg32 3 := by decide

/-- StoresAndLoadsAreLittleEndian, StoreFrame: four bytes at distinct locations, none fetched, and the store's answer. -/
theorem witness_store : valueOf (locate State.reset (.segment .ds) 0x10 .dword .store 0 4) = some [0x10, 0x11, 0x12, 0x13]
    ∧ valueOf (locate State.reset (.segment .ds) 0x10 .dword .load 0 4) = some [0x10, 0x11, 0x12, 0x13]
    ∧ ([0x10, 0x11, 0x12, 0x13] : List Nat).Nodup ∧ (∀ l ∈ ([0x10, 0x11, 0x12, 0x13] : List Nat), l ∉ State.reset.fetched)
    ∧ (valueOf (memWrite State.reset (.segment .ds) 0x10 .dword 0x11223344)).map (·.mem)
        = some [(0x10, 0x44), (0x11, 0x33), (0x12, 0x22), (0x13, 0x11)] := by decide

/-- ProgramBytesAreFixed: a store to a fetched byte, a fetch of a stored byte. -/
theorem witness_program_bytes :
    valueOf (locate (State.reset.noteFetched 5) (.segment .ss) 4 .word .store 0 2) = some [4, 5] ∧ 5 ∈ (State.reset.noteFetched 5).fetched
    ∧ State.reset.ip.toNat + 0 < 2 ^ 32
    ∧ translate State.reset.launch.translate
        { source := .segment .cs, offset := State.reset.ip.toNat + 0, width := .byte, byte := 0, kind := .fetch } = .location 0
    ∧ 0 ∈ (State.reset.store [0] [1]).stored := by decide

/-- FirstFaultingByteRaises: the second byte of a word faults, for a load and for a store. -/
theorem witness_second_byte :
    1 < accessBytes .word
    ∧ (∀ j, j < 1 → translate [⟨none, 0, 9, none, some 1, none, .fault .pf none⟩] ⟨.segment .ds, 7, .word, j, .load⟩ = .location 7)
    ∧ translate [⟨none, 0, 9, none, some 1, none, .fault .pf none⟩] ⟨.segment .ds, 7, .word, 1, .load⟩ = .fault .pf none
    ∧ (∀ j, j < 1 → translate [⟨none, 0, 9, none, some 1, none, .fault .pf none⟩] ⟨.segment .ds, 7, .word, j, .store⟩ = .location 7)
    ∧ translate [⟨none, 0, 9, none, some 1, none, .fault .pf none⟩] ⟨.segment .ds, 7, .word, 1, .store⟩ = .fault .pf none := by decide

/-- FirstFaultingByteRaises, the other two clauses: a load and a store that stop, and a store to a fetched byte. -/
theorem witness_stopped_access :
    memRead { State.reset with launch := faultingSecondByte } (.segment .ds) 7 .word = .error (.fault (.exception .pf 14 none 0))
    ∧ memWrite { State.reset with launch := faultingSecondByte } (.segment .ds) 7 .word 1 = .error (.fault (.exception .pf 14 none 0))
    ∧ memWrite (State.reset.noteFetched 5) (.segment .ds) 4 .word 1 = .error (.refusal .storeToFetched) := by decide

/-- DisplacementAndImmediateValues: R98-like bytes with the immediate 1234H; the last byte and the last bit of it. -/
theorem witness_immediate : immediateOf { sampleDecoded with imm := [0x34, 0x12] } = some 0x1234 ∧ immediateOf sampleDecoded = none
    ∧ 1 < ([0x34, 0x12] : List Byte).length ∧ 7 < 8 := by decide

/-- Operand16AgreesWithTable172, Operand32AgreesWithTables173And174: each address size, with and without a SIB byte. -/
theorem witness_operand_of : ({ sampleDecoded with addressSize := .s16 } : Decoded).addressSize = .s16
    ∧ sampleDecoded.addressSize = .s32 ∧ sampleDecoded.addressing.sib = some 0x8D ∧ hasSIB .s32 0x45 = false := by decide

/-- EveryTranslateIsATable: a query of a list. -/
theorem witness_query : (⟨.system, 0x66, .word, 1, .load⟩ : TranslateQuery) ∈ [(⟨.system, 0x66, .word, 1, .load⟩ : TranslateQuery)] := by
  decide

/-- RegisterOperandForms, DefaultSegmentOf16BitForms, ScaledIndexIsRegisterTimesPowerOfTwo, OverrideReplacesTheSegmentOnly. -/
theorem witness_forms : modField 0xC4 = 3 ∧ modField 0x46 ≠ 3 ∧ indexField 0x24 = 4 ∧ indexField 0x8D ≠ 4
    ∧ operand16 regs16 none 0xC0 0 = .reg 0 ∧ operand16 regs16 none 0x02 0 = .mem .ss 0x8020
    ∧ operand32 regs32 none 0xC4 0 0 = .reg 4 ∧ operand32 regs32 none 0x00 0 0 = .mem .ds 0x1000 := by decide

/-- RegisterOperandForms, the REG clauses: each use of REG, each width, and no ModR/M byte. -/
theorem witness_reg_field : (regSample .s16 (some 0x48)).addressing.modrm = some 0x48 ∧ (regSample .s16 none).addressing.modrm = none
    ∧ (regSample .s16 none).operandSize = .s16 ∧ (regSample .s32 none).operandSize = .s32
    ∧ ({ cmcShape with regField := .register true } : Shape).regField = .register true
    ∧ ({ cmcShape with regField := .register false } : Shape).regField = .register false
    ∧ ({ cmcShape with regField := .digit } : Shape).regField = .digit ∧ cmcShape.regField = .unused := by decide

/-- PushOn16BitStack: at the wrap of SP. -/
theorem witness_push16 : (stacked .s16 0x00070000 []).launch.stackAddrSize = .s16
    ∧ valueOf (locate (stacked .s16 0x00070000 []) (.segment .ss)
        ((stacked .s16 0x00070000 []).read16 .sp - BitVec.ofNat 16 (sizeBytes .s16)).toNat (sizeWidth .s16) .store 0 (sizeBytes .s16))
      = some [0xFFFE, 0xFFFF] ∧ ([0xFFFE, 0xFFFF] : List Nat).Nodup
    ∧ (∀ l ∈ ([0xFFFE, 0xFFFF] : List Nat), l ∉ (stacked .s16 0x00070000 []).fetched) := by decide

/-- PushOn32BitStack, PushKeepsTheInvariant, PopAfterPushRestores: at the wrap of ESP. -/
theorem witness_push32 : (stacked .s32 0 []).launch.stackAddrSize = .s32
    ∧ valueOf (locate (stacked .s32 0 []) (.segment .ss)
        ((stacked .s32 0 []).read32 .esp - BitVec.ofNat 32 (sizeBytes .s16)).toNat (sizeWidth .s16) .store 0 (sizeBytes .s16))
      = some [0xFFFFFFFE, 0xFFFFFFFF] ∧ ([0xFFFFFFFE, 0xFFFFFFFF] : List Nat).Nodup
    ∧ (∀ l ∈ ([0xFFFFFFFE, 0xFFFFFFFF] : List Nat), l ∉ (stacked .s32 0 []).fetched)
    ∧ (valueOf (push (stacked .s32 0 []) .s16 0xBEEF)).map
        (fun t => (valueOf (locate t (.segment .ss) (stackOffset t) (sizeWidth .s16) .store 0 (sizeBytes .s16)),
          valueOf (locate t (.segment .ss) (stackOffset t) (sizeWidth .s16) .load 0 (sizeBytes .s16))))
      = some (some [0xFFFFFFFE, 0xFFFFFFFF], some [0xFFFFFFFE, 0xFFFFFFFF]) := by decide

theorem witness_push_invariant : (stacked .s32 0 []).inv := ⟨by decide, by decide, by decide, by decide⟩

/-- PopReadsThenMovesThePointer: a load that answers under each stack size, and one that stops. -/
theorem witness_pop :
    valueOf (memRead (stacked .s16 0x0007FFFE [(0xFFFE, 0x34), (0xFFFF, 0x12)]) (.segment .ss)
        (if (stacked .s16 0x0007FFFE []).launch.stackAddrSize = .s16 then 0xFFFE else 0x0007FFFE) .word) = some 0x1234
    ∧ valueOf (memRead (stacked .s32 0xFFFFFFFE [(0xFFFFFFFE, 0xEF), (0xFFFFFFFF, 0xBE)]) (.segment .ss)
        ((stacked .s32 0xFFFFFFFE []).read32 .esp).toNat .word) = some 0xBEEF
    ∧ memRead { stacked .s32 0 [] with launch := faultingSecondByte } (.segment .ss) 0 .word
      = .error (.fault (.exception .pf 14 none 0)) := by decide

/-- DivRoundsDownAndModIsNotNegative: a positive divisor. -/
theorem witness_divisor : (0 : Int) < 8 := by decide

/-- BitInMemoryIsAddressedByDivAndMod, AssignedBitReadsBack: a byte that reads, an assignment that answers, and equal locations. -/
theorem witness_bit :
    valueOf (memRead { State.reset with mem := [(0xFFF, 0x80)] } (.segment .ds) (bitByteOffset .s32 0x1000 (-1)).toNat .byte) = some 0x80
    ∧ (valueOf (assignBit { State.reset with mem := [(0xFFF, 0x80)] } (.mem .ds 0xFFF 0) true)).map (·.mem) = some [(0xFFF, 0x81)]
    ∧ valueOf (locate State.reset (.segment .ds) 0xFFF .byte .load 0 1) = valueOf (locate State.reset (.segment .ds) 0xFFF .byte .store 0 1)
    ∧ (1 : Fin 32) ≠ 0 ∧ (1 : Fin 16) ≠ 0 ∧ (1 : Fin 8) ≠ 0 := by decide

/-- IoPermissionChecksEveryCoveredPort, IoPermissionOf286TssIsFalse: I8's TSS, and a 286 TSS. -/
theorem witness_io : (ioState 0xE7 0x00 0x04).launch.tssType = .tss386
    ∧ valueOf (memRead (ioState 0xE7 0x00 0x04) .system (0 + 102) .word) = some 0x68
    ∧ valueOf (memRead (ioState 0xE7 0x00 0x04) .system (0 + (0x3FF / 8 + 0x68)) .word) = some 0x400
    ∧ State.reset.launch.tssType = .tss286 := by decide

end Sys2Proof.Tests
end

/-! PROOFS of the statements about the state: register names and views (R20 to R23), the fetch across the top (R26), reset (R37). -/

namespace Sys2Proof.Machine

/-! ## The register that a code's 16-bit and 8-bit names stand in -/

@[simp] theorem parent16_reg16 (c : BitVec 3) : parent16 (reg16 c) = reg32 c := by revert c; decide

theorem parent8_reg8 {c : BitVec 3} : c.toNat < 4 → parent8 (reg8 c) = reg32 c := by revert c; decide

theorem parent8_reg8_add_four {c : BitVec 3} : c.toNat < 4 → parent8 (reg8 (c + 4)) = reg32 c := by revert c; decide

theorem isHigh8_reg8 {c : BitVec 3} : c.toNat < 4 → isHigh8 (reg8 c) = false := by revert c; decide

theorem isHigh8_reg8_add_four {c : BitVec 3} : c.toNat < 4 → isHigh8 (reg8 (c + 4)) = true := by revert c; decide

/-! ## The bits that a view reads -/

theorem State.getLsbD_read16 (s : State) (r : Reg16) {k : Nat} (hk : k < 16) :
    (s.read16 r).getLsbD k = (s.read32 (parent16 r)).getLsbD k := by
  simp [State.read16, hk]

theorem State.getLsbD_read8_low (s : State) {r : Reg8} (hr : isHigh8 r = false) {k : Nat} (hk : k < 8) :
    (s.read8 r).getLsbD k = (s.read32 (parent8 r)).getLsbD k := by
  simp [State.read8, hr, hk]

theorem State.getLsbD_read8_high (s : State) {r : Reg8} (hr : isHigh8 r = true) {k : Nat} (hk : k < 8) :
    (s.read8 r).getLsbD k = (s.read32 (parent8 r)).getLsbD (k + 8) := by
  simp [State.read8, hr, hk, Nat.add_comm]

/-! ## The bits that a write through a view changes, and those it keeps -/

/-- A field that reaches the top of a vector reads as the vector does, past the top too. -/
theorem getLsbD_extract_to_top {a n w : Nat} (x : BitVec w) (hw : w ≤ a + n) (k : Nat) :
    (x.extractLsb' a n).getLsbD k = x.getLsbD (a + k) := by
  rw [BitVec.getLsbD_extractLsb']
  by_cases hk : k < n
  · simp [hk]
  · simp [hk, BitVec.getLsbD_of_ge x (a + k) (by omega)]

/-- A vector with its low `m` bits replaced. -/
theorem getLsbD_replace_low {m n w : Nat} (x : BitVec w) (v : BitVec m) (hw : w ≤ m + n) (k : Nat) :
    (x.extractLsb' m n ++ v).getLsbD k = if k < m then v.getLsbD k else x.getLsbD k := by
  rw [BitVec.getLsbD_append, getLsbD_extract_to_top x hw]
  by_cases hk : k < m
  · simp [hk]
  · simp [hk, show m + (k - m) = k by omega]

/-- A vector with the `m` bits from bit `l` up replaced. -/
theorem getLsbD_replace_field {l m n w : Nat} (x : BitVec w) (v : BitVec m) (hw : w ≤ l + m + n) (k : Nat) :
    (x.extractLsb' (l + m) n ++ v ++ x.extractLsb' 0 l).getLsbD k
      = if l ≤ k ∧ k < l + m then v.getLsbD (k - l) else x.getLsbD k := by
  rw [BitVec.getLsbD_append, BitVec.getLsbD_append, getLsbD_extract_to_top x hw]
  by_cases below : k < l
  · simp [below, Nat.not_le.mpr below]
  · by_cases inside : k < l + m
    · simp [below, inside, show l ≤ k by omega, show k - l < m by omega]
    · simp [below, inside, show ¬ k - l < m by omega, show l + m + (k - l - m) = k by omega]

theorem State.getLsbD_read32_write16 (s : State) (r : Reg16) (v : Word) (k : Nat) :
    ((s.write16 r v).read32 (parent16 r)).getLsbD k
      = if k < 16 then v.getLsbD k else (s.read32 (parent16 r)).getLsbD k := by
  rw [State.write16, State.read32_write32_same]
  exact getLsbD_replace_low _ v (by omega) k

theorem State.getLsbD_read32_write8_low (s : State) {r : Reg8} (hr : isHigh8 r = false) (v : Byte) (k : Nat) :
    ((s.write8 r v).read32 (parent8 r)).getLsbD k
      = if k < 8 then v.getLsbD k else (s.read32 (parent8 r)).getLsbD k := by
  simp only [State.write8, hr, Bool.false_eq_true, if_false, State.read32_write32_same]
  exact getLsbD_replace_low _ v (by omega) k

theorem State.getLsbD_read32_write8_high (s : State) {r : Reg8} (hr : isHigh8 r = true) (v : Byte) (k : Nat) :
    ((s.write8 r v).read32 (parent8 r)).getLsbD k
      = if 8 ≤ k ∧ k < 16 then v.getLsbD (k - 8) else (s.read32 (parent8 r)).getLsbD k := by
  simp only [State.write8, hr, if_true, State.read32_write32_same]
  exact getLsbD_replace_field _ v (by omega) k

theorem State.read32_write16_other (s : State) {r : Reg16} {r' : Reg32} (v : Word) (h : r' ≠ parent16 r) :
    (s.write16 r v).read32 r' = s.read32 r' :=
  s.read32_write32_other _ h

theorem State.read32_write8_other (s : State) {r : Reg8} {r' : Reg32} (v : Byte) (h : r' ≠ parent8 r) :
    (s.write8 r v).read32 r' = s.read32 r' := by
  cases hr : isHigh8 r <;> simp [State.write8, hr, h]

/-! ## Where a fetch across the top stops a step -/

theorem fetchByte_acrossTop {s : State} {k : Nat} (h : 2 ^ 32 ≤ s.ip.toNat + k) :
    fetchByte s k = .error (.refusal .fetchAcrossTop) :=
  if_pos h

theorem fetchInstr_of_fetchByte_error {s : State} {x : Stop} (h : fetchByte s (prefixCount s.prefixes) = .error x) :
    fetchInstr s = .error x := by
  simp only [fetchInstr, h]

theorem step_of_fetchInstr_error {s : State} {x : Stop} (hf : s.final = false) (h : fetchInstr s = .error x) :
    step s = x.outcome := by
  simp [step, hf, h]

/-! ## The canonical forms of nothing -/

theorem Memory.wf_nil : Memory.wf [] = true := rfl

theorem Locations.wf_nil : Locations.wf [] = true := rfl

end Sys2Proof.Machine

namespace Sys2Proof

open Sys2Proof.Machine

/-- Settles O37: each name is its parent's bits, and a write through it replaces just those (R23, D3). -/
theorem registerViewsAlias : Obligations.RegisterViewsAlias := by
  refine ⟨fun s c k hk => ?_, fun s c k hc hk => ⟨?_, ?_⟩, fun s c v => ⟨fun k => ?_, fun r hr => ?_⟩,
    fun s c v hc => ⟨fun k => ?_, fun k => ?_, fun r hr => ⟨?_, ?_⟩⟩⟩
  · rw [s.getLsbD_read16 _ hk, parent16_reg16]
  · rw [s.getLsbD_read8_low (isHigh8_reg8 hc) hk, parent8_reg8 hc]
  · rw [s.getLsbD_read8_high (isHigh8_reg8_add_four hc) hk, parent8_reg8_add_four hc]
  · simpa only [parent16_reg16] using s.getLsbD_read32_write16 (reg16 c) v k
  · exact s.read32_write16_other v (by rwa [parent16_reg16])
  · simpa only [parent8_reg8 hc] using s.getLsbD_read32_write8_low (isHigh8_reg8 hc) v k
  · simpa only [parent8_reg8_add_four hc] using s.getLsbD_read32_write8_high (isHigh8_reg8_add_four hc) v k
  · exact s.read32_write8_other v (by rwa [parent8_reg8 hc])
  · exact s.read32_write8_other v (by rwa [parent8_reg8_add_four hc])

/-- Settles O28: memory and the notes of locations are empty, and nothing is fetched. -/
theorem resetHasTheInvariant : Obligations.ResetHasTheInvariant :=
  ⟨Memory.wf_nil, Locations.wf_nil, Locations.wf_nil, fun _ hl => absurd hl List.not_mem_nil⟩

/-- Settles O35: the fetch stops before `Translate` is asked, and the step's first act after R239's test is that fetch (R26, D2). -/
theorem fetchAcrossTheTopIsRefused : Obligations.FetchAcrossTheTopIsRefused :=
  ⟨fun _ _ h => fetchByte_acrossTop h,
    fun _ hf h => step_of_fetchInstr_error hf (fetchInstr_of_fetchByte_error (fetchByte_acrossTop h))⟩

/-- Settles O36: the three code tables by evaluation, and each name back from its code by the laws of the tables. -/
theorem registerCodes : Obligations.RegisterCodes :=
  ⟨by decide, by decide, by decide, reg32_code32, reg16_code16, reg8_code8⟩

end Sys2Proof

/-! PROOFS of the statements about memory: stores and loads (R50, R51), the bytes of a program (R61), `Translate` as a table (R65),
and the invariant of every step. -/

namespace Sys2Proof.Machine

/-! ## The invariant through a fetch and a row (R61) -/

/-- A fetch that was let through keeps the two notes apart: its location was not stored to. -/
theorem State.noteFetched_inv {s : State} {l : Nat} (hs : s.inv) (hl : l ∉ s.stored) : (s.noteFetched l).inv := by
  obtain ⟨hmem, hfetched, hstored, hapart⟩ := hs
  refine ⟨hmem, Locations.add_wf hfetched, hstored, fun x hx => ?_⟩
  rcases Locations.mem_add.mp hx with rfl | hx
  · exact hl
  · exact hapart x hx

/-- The invariant speaks of memory and the two notes only. -/
theorem State.inv_congr {s t : State} (hmem : t.mem = s.mem) (hfetched : t.fetched = s.fetched) (hstored : t.stored = s.stored) :
    t.inv ↔ s.inv := by
  simp only [State.inv, hmem, hfetched, hstored]

theorem exec_keeps_inv {i : Instr} {s t : State} (hs : s.inv) (h : exec i s = .next t) : t.inv := by
  rcases exec_next h with ⟨-, -, rfl⟩ | ⟨q, -, -, rfl⟩
  · exact (State.inv_congr (by simp) (by simp) (by simp)).mpr hs
  · exact (State.inv_congr (by simp) (by simp) (by simp)).mpr hs

/-! ## What a located access does -/

section Access

variable {s : State} {src : AddressSource} {off : Nat} {w : AccessWidth} {ls : List Nat}

theorem memRead_of_locate (hls : locate s src off w .load 0 (accessBytes w) = .ok ls) :
    memRead s src off w = .ok (BitVec.ofNat 32 (littleEndian (ls.map s.mem.read))) := by
  simp only [memRead, hls]

theorem memWrite_of_locate (v : DWord) (hls : locate s src off w .store 0 (accessBytes w) = .ok ls)
    (hf : ∀ l ∈ ls, l ∉ s.fetched) : memWrite s src off w v = .ok (s.store ls (bytesOf v (accessBytes w))) := by
  have hnone : ls.any (fun l => s.fetched.contains l) = false := by simpa using hf
  simp only [memWrite, hls, hnone, Bool.false_eq_true, if_false]

theorem memWrite_storeToFetched (v : DWord) {l : Nat} (hls : locate s src off w .store 0 (accessBytes w) = .ok ls)
    (hl : l ∈ ls) (hf : l ∈ s.fetched) : memWrite s src off w v = .error (.refusal .storeToFetched) := by
  have hsome : ls.any (fun l => s.fetched.contains l) = true := List.any_eq_true.mpr ⟨l, hl, by simpa using hf⟩
  simp only [memWrite, hls, hsome, if_true]

end Access

theorem fetchByte_fetchOfStored {s : State} {l k : Nat} (hk : s.ip.toNat + k < 2 ^ 32)
    (hl : translate s.launch.translate
      { source := .segment .cs, offset := s.ip.toNat + k, width := .byte, byte := 0, kind := .fetch } = .location l)
    (hst : l ∈ s.stored) : fetchByte s k = .error (.refusal .fetchOfStored) := by
  rw [fetchByte, if_neg (Nat.not_le.mpr hk)]
  simp [hl, hst]

/-! ## The bytes that a store places (R51) -/

/-- Byte `k` of a value is its bits `8k+7` to `8k`. -/
theorem getElem_bytesOf {n : Nat} : ∀ (v : DWord) {k : Nat} (hk : k < (bytesOf v n).length),
    (bytesOf v n)[k] = v.extractLsb' (8 * k) 8 := by
  induction n with
  | zero => intro v k hk; simp at hk
  | succ n ih =>
    intro v k hk
    cases k with
    | zero => rfl
    | succ k =>
      have htail : k < (bytesOf (v >>> 8) n).length := by simpa using hk
      calc (bytesOf v (n + 1))[k + 1] = (v >>> 8).extractLsb' (8 * k) 8 := ih _ htail
        _ = v.extractLsb' (8 * (k + 1)) 8 := by
          ext i hi
          simp [Nat.mul_add, Nat.add_comm, Nat.add_left_comm]

theorem getElem_read_writeAll {ls : List Nat} {vs : List Byte} (m : Memory) (hn : ls.Nodup) (hlen : ls.length = vs.length)
    {k : Nat} (hk : k < ls.length) : (m.writeAll ls vs).read ls[k] = vs[k] := by
  have h := map_read_writeAll ls vs m hn hlen
  simp only [← List.getElem_map (m.writeAll ls vs).read (h := by simpa using hk), h]

/-! ## A table that answers finitely many queries as a function does (R65) -/

/-- The row that covers one query and no other. -/
def rowOf (q : TranslateQuery) (a : TranslateAnswer) : TranslateRow :=
  { source := some q.source, lo := q.offset, hi := q.offset, width := some q.width, byte := some q.byte, kind := some q.kind,
    answer := a }

theorem rowCovers_rowOf {p q : TranslateQuery} {a : TranslateAnswer} : rowCovers (rowOf p a) q = true ↔ p = q := by
  obtain ⟨source, offset, width, byte, kind⟩ := p
  obtain ⟨source', offset', width', byte', kind'⟩ := q
  have hoffset : offset = offset' ↔ offset ≤ offset' ∧ offset' ≤ offset := le_antisymm_iff
  simp only [rowCovers, Bool.and_eq_true, decide_eq_true_eq]
  simp [rowOf, admits, hoffset, and_assoc]

/-- The row of a query places its byte at the location it names, with nothing added. -/
theorem rowAnswer_rowOf (q : TranslateQuery) (a : TranslateAnswer) : rowAnswer (rowOf q a) q = a := by
  cases a <;> simp [rowAnswer, rowOf]

theorem translate_map_rowOf (f : TranslateQuery → TranslateAnswer) {q : TranslateQuery} {qs : List TranslateQuery}
    (hq : q ∈ qs) : translate (qs.map fun p => rowOf p (f p)) q = f q := by
  induction qs with
  | nil => cases hq
  | cons p qs ih =>
    rw [List.map_cons, translate_cons]
    by_cases hp : p = q
    · subst hp
      rw [if_pos (rowCovers_rowOf.mpr rfl), rowAnswer_rowOf]
    · rw [if_neg (fun h => hp (rowCovers_rowOf.mp h))]
      exact ih ((List.mem_cons.mp hq).resolve_left (Ne.symm hp))

end Sys2Proof.Machine

namespace Sys2Proof

open Sys2Proof.Machine

/-- Settles O27: a step notes one location, which was not stored to since its fetch answered, and the row that runs
leaves memory and the notes alone. -/
theorem stepKeepsTheInvariant : Obligations.StepKeepsTheInvariant := by
  intro s t hs h
  obtain ⟨-, l, b, i, hfetch, -, hexec⟩ := step_next h
  obtain ⟨-, hl, -, -⟩ := fetchByte_ok hfetch
  exact exec_keeps_inv (State.noteFetched_inv hs hl) hexec

/-- Settles O38: the store places the value's bytes at distinct locations, and the load puts the same bytes together again (D4). -/
theorem storesAndLoadsAreLittleEndian : Obligations.StoresAndLoadsAreLittleEndian := by
  intro s src off w v ls hstore hload hn hf
  have hlen : ls.length = (bytesOf v (accessBytes w)).length := by rw [bytesOf_length, (locate_ok hstore).1]
  refine ⟨_, memWrite_of_locate v hstore hf, fun k hk => ?_, ?_⟩
  · rw [State.store_mem, getElem_read_writeAll _ hn hlen hk, getElem_bytesOf]
  · have hback : locate (s.store ls (bytesOf v (accessBytes w))) src off w .load 0 (accessBytes w) = .ok ls :=
      (locate_congr (State.store_launch s ..) (State.store_ip s ..) src off w .load _ 0).trans hload
    rw [memRead_of_locate hback, State.store_mem, map_read_writeAll _ _ _ hn hlen, littleEndian_bytesOf, Nat.pow_mul]

/-- Settles O39: the next state is `State.store` at the located bytes, whose fields are known one by one. -/
theorem storeFrame : Obligations.StoreFrame := by
  intro s t src off w v ls hls h
  obtain ⟨ls', hls', -, rfl⟩ := memWrite_ok h
  obtain rfl : ls = ls' := Except.ok.inj (hls.symm.trans hls')
  exact ⟨fun a ha => Memory.read_writeAll_other _ _ _ ha, rfl, rfl, rfl, rfl, rfl, rfl, rfl, fun _ => Locations.mem_addAll⟩

/-- Settles O42: one row for each query of the list, which covers that query alone. -/
theorem everyTranslateIsATable : Obligations.EveryTranslateIsATable :=
  fun f qs => ⟨qs.map fun q => rowOf q (f q), fun _ hq => translate_map_rowOf f hq⟩

/-- Settles O40: both refusals of R61 (D8). -/
theorem programBytesAreFixed : Obligations.ProgramBytesAreFixed :=
  ⟨fun _ _ _ _ v _ _ hls hl hf => memWrite_storeToFetched v hls hl hf, fun _ _ _ hk hl hst => fetchByte_fetchOfStored hk hl hst⟩

end Sys2Proof

/-! PROOFS of the statements about the encoding (30_encoding.md). First the decoder of R97 piece by piece: which bytes a supply holds
where a piece answers, the set that a run of prefixes records, and the two together. -/

namespace Sys2Proof.Machine

/-! ## The bytes a supply holds -/

section Supplies

variable {ε : Type} {fetch fetch' : Nat → Except ε Byte}

/-- The supply answers these bytes from index `a` on. -/
def Supplies (fetch : Nat → Except ε Byte) (a : Nat) (bs : List Byte) : Prop := fetchMany fetch a bs.length = .ok bs

theorem fetchMany_ok_iff {a n : Nat} {bs : List Byte} : fetchMany fetch a n = .ok bs ↔ bs.length = n ∧ Supplies fetch a bs := by
  constructor
  · intro h
    obtain rfl := fetchMany_length h
    exact ⟨rfl, h⟩
  · rintro ⟨rfl, h⟩
    exact h

@[simp] theorem supplies_nil (a : Nat) : Supplies fetch a [] := rfl

theorem supplies_cons {a : Nat} {b : Byte} {bs : List Byte} :
    Supplies fetch a (b :: bs) ↔ fetch a = .ok b ∧ Supplies fetch (a + 1) bs := by
  simp only [Supplies, List.length_cons, fetchMany]
  cases fetch a with
  | error e => simp
  | ok c => cases fetchMany fetch (a + 1) bs.length <;> simp

theorem supplies_append {xs ys : List Byte} : ∀ {a : Nat},
    Supplies fetch a (xs ++ ys) ↔ Supplies fetch a xs ∧ Supplies fetch (a + xs.length) ys := by
  induction xs with
  | nil => simp
  | cons x xs ih =>
    intro a
    rw [List.cons_append, supplies_cons, ih, supplies_cons, and_assoc, List.length_cons, Nat.add_right_comm, Nat.add_assoc]

/-- What a list of bytes supplies from an index on is what stands there. -/
theorem supplies_fetchList {bytes bs : List Byte} : ∀ {a : Nat}, Supplies (fetchList bytes) a bs ↔ bs <+: bytes.drop a := by
  induction bs with
  | nil => simp
  | cons b bs ih =>
    intro a
    rw [supplies_cons, ih, fetchList]
    by_cases ha : a < bytes.length
    · rw [List.drop_eq_getElem_cons ha, List.cons_prefix_cons, List.getElem?_eq_getElem ha]
      simp only [Except.ok.injEq, eq_comm (a := b)]
    · simp [List.drop_eq_nil_of_le (Nat.not_lt.mp ha), List.getElem?_eq_none (Nat.not_lt.mp ha)]

theorem fetchMany_congr : ∀ {n a : Nat}, (∀ k, a ≤ k → fetch k = fetch' k) → fetchMany fetch a n = fetchMany fetch' a n
  | 0, _, _ => rfl
  | n + 1, a, h => by
    have ih : fetchMany fetch (a + 1) n = fetchMany fetch' (a + 1) n := fetchMany_congr fun k hk => h k (Nat.le_of_succ_le hk)
    simp only [fetchMany, h a le_rfl, ih]

end Supplies

/-! ## The fields after the prefixes, in the order of R70 -/

/-- The addressing bytes in memory order. -/
def addressingBytes (a : Addressing) : List Byte := a.modrm.toList ++ a.sib.toList ++ a.disp

theorem length_addressingBytes (a : Addressing) : (addressingBytes a).length = a.size := by
  simp only [addressingBytes, List.length_append, Addressing.size]

/-- The bytes of an instruction from its opcode on. -/
def bytesAfterPrefixes (d : Decoded) : List Byte := d.opcode ++ addressingBytes d.addressing ++ d.imm

theorem encodeWhole_eq (d : Decoded) : encodeWhole d = (prefixList d.prefixes).map prefixValue ++ bytesAfterPrefixes d := by
  simp only [encodeWhole, bytesAfterPrefixes, addressingBytes, List.append_assoc]

theorem addressing_wellFormed_false {size : Size} {a : Addressing} :
    a.wellFormed false size = true ↔ a = { modrm := none, sib := none, disp := [] } := by
  obtain ⟨modrm, sib, disp⟩ := a
  cases modrm <;> simp [Addressing.wellFormed]

theorem addressing_wellFormed_true {size : Size} {a : Addressing} :
    a.wellFormed true size = true ↔
      ∃ m, a.modrm = some m ∧ a.sib.isSome = hasSIB size m ∧ a.disp.length = dispBytes size m a.sib := by
  obtain ⟨modrm, sib, disp⟩ := a
  cases modrm <;> simp [Addressing.wellFormed]

theorem dispBytes_mem (size : Size) (m : Byte) (s : Option Byte) : dispBytes size m s ∈ [0, 1, 2, 4] := by
  cases size <;> simp only [dispBytes] <;> split_ifs <;> simp

/-- No displacement has another length than 0, 1, 2 or 4 bytes. -/
theorem length_disp_mem {hasModRM : Bool} {size : Size} {a : Addressing} (h : a.wellFormed hasModRM size = true) :
    a.disp.length ∈ [0, 1, 2, 4] := by
  cases hasModRM with
  | false => rw [addressing_wellFormed_false.mp h]; simp
  | true =>
    obtain ⟨m, -, -, hlen⟩ := addressing_wellFormed_true.mp h
    exact hlen ▸ dispBytes_mem size m a.sib

/-- What well-formedness says of a whole instruction whose opcode has the shape `sh` (R70, R77, R84 to R89, R95). -/
structure Fits (p : Launch) (sh : Shape) (d : Decoded) : Prop where
  shape : shapeOf p d.opcode = some sh
  noPrefix : d.opcode.head?.bind prefixOfByte = none
  addressSize : d.addressSize = addressSizeOf p d.prefixes
  operandSize : d.operandSize = operandSizeOf p d.prefixes
  addressing : d.addressing.wellFormed sh.hasModRM d.addressSize = true
  imm : d.imm.length = immBytes sh d.operandSize
  length : d.length = prefixCount d.prefixes + d.opcode.length + d.addressing.size + d.imm.length
  limit : d.length ≤ p.maxInstrLength

theorem decoded_wellFormed_iff {p : Launch} {d : Decoded} : d.wellFormed p = true ↔ ∃ sh, Fits p sh d := by
  unfold Decoded.wellFormed
  split
  · next hnone => exact ⟨fun h => absurd h Bool.false_ne_true, fun ⟨sh, h⟩ => by simp [h.shape] at hnone⟩
  · next sh hsh =>
    simp only [Bool.and_eq_true, beq_iff_eq, decide_eq_true_eq, Option.isNone_iff_eq_none]
    constructor
    · rintro ⟨⟨⟨⟨⟨⟨hno, hadr⟩, hop⟩, hwf⟩, himm⟩, hlen⟩, hlim⟩
      exact ⟨sh, hsh, hno, hadr, hop, hwf, himm, hlen, hlim⟩
    · rintro ⟨sh', h⟩
      obtain rfl : sh = sh' := Option.some.inj (hsh.symm.trans h.shape)
      exact ⟨⟨⟨⟨⟨⟨h.noPrefix, h.addressSize⟩, h.operandSize⟩, h.addressing⟩, h.imm⟩, h.length⟩, h.limit⟩

/-- The length of a fitting instruction counts its prefixes and the bytes after them (R88). -/
theorem Fits.length_eq {p : Launch} {sh : Shape} {d : Decoded} (h : Fits p sh d) :
    d.length = prefixCount d.prefixes + (bytesAfterPrefixes d).length := by
  rw [h.length]
  simp only [bytesAfterPrefixes, List.length_append, length_addressingBytes, Nat.add_assoc]

/-! ## What each piece of R97 answers, and which indexes it reads -/

section Pieces

variable {ε : Type} {lift : Reject → ε} {fetch fetch' : Nat → Except ε Byte} {p : Launch}

/-- The primary opcode is the first byte and, where `OpcodeShape` asks for it, the byte at `a` (R75). -/
theorem decodeOpcode_ok_iff {a : Nat} {op : Byte} {opcode : List Byte} {sh : Shape} :
    decodeOpcode lift fetch p a op = .ok (opcode, sh) ↔
      shapeOf p opcode = some sh ∧ ∃ more, opcode = op :: more ∧ Supplies fetch a more := by
  constructor
  · intro h
    unfold decodeOpcode at h
    split at h
    · cases h
    · next hsh =>
      cases h
      exact ⟨by simp only [shapeOf, hsh], [], rfl, supplies_nil a⟩
    · next rows hsh =>
      split at h
      · cases h
      · next op2 hop2 =>
        split at h
        · cases h
        · next hrow =>
          cases h
          exact ⟨by simp only [shapeOf, hsh, hrow], [op2], rfl, supplies_cons.mpr ⟨hop2, supplies_nil _⟩⟩
  · rintro ⟨hsh, more, rfl, hmore⟩
    match more with
    | [] =>
      simp only [shapeOf] at hsh
      split at hsh
      · next hentry => cases hsh; simp only [decodeOpcode, hentry]
      · cases hsh
    | [op2] =>
      obtain ⟨hop2, -⟩ := supplies_cons.mp hmore
      simp only [shapeOf] at hsh
      split at hsh
      · next hentry => simp only [decodeOpcode, hentry, hop2, hsh]
      · cases hsh
    | _ :: _ :: _ => cases hsh

theorem decodeAddressing_ok_iff {hasModRM : Bool} {size : Size} {a : Nat} {adr : Addressing} :
    decodeAddressing fetch hasModRM size a = .ok adr ↔
      adr.wellFormed hasModRM size = true ∧ Supplies fetch a (addressingBytes adr) := by
  cases hasModRM with
  | false =>
    rw [addressing_wellFormed_false]
    constructor
    · intro h; cases h; exact ⟨rfl, supplies_nil a⟩
    · rintro ⟨rfl, -⟩; rfl
  | true =>
    rw [addressing_wellFormed_true]
    constructor
    · intro h
      simp only [decodeAddressing] at h
      split at h
      · cases h
      · next m hm =>
        split at h
        · next hsib =>
          split at h
          · cases h
          · next disp hdisp =>
            cases h
            obtain ⟨hlen, hdisp⟩ := fetchMany_ok_iff.mp hdisp
            exact ⟨⟨m, rfl, hsib.symm, hlen⟩, supplies_cons.mpr ⟨hm, hdisp⟩⟩
        · next hsib =>
          split at h
          · cases h
          · next s hs =>
            split at h
            · cases h
            · next disp hdisp =>
              cases h
              obtain ⟨hlen, hdisp⟩ := fetchMany_ok_iff.mp hdisp
              exact ⟨⟨m, rfl, hsib.symm, hlen⟩, supplies_cons.mpr ⟨hm, supplies_cons.mpr ⟨hs, hdisp⟩⟩⟩
    · obtain ⟨modrm, sib, disp⟩ := adr
      rintro ⟨⟨m, rfl, hsib, hlen⟩, hbytes⟩
      obtain ⟨hm, hbytes⟩ := supplies_cons.mp hbytes
      cases sib with
      | none =>
        have hdisp := fetchMany_ok_iff.mpr ⟨hlen, hbytes⟩
        simp only [decodeAddressing, hm, show hasSIB size m = false from hsib.symm, hdisp]
      | some s =>
        obtain ⟨hs, hbytes⟩ := supplies_cons.mp hbytes
        have hdisp := fetchMany_ok_iff.mpr ⟨hlen, hbytes⟩
        simp only [decodeAddressing, hm, show hasSIB size m = true from hsib.symm, hs, hdisp]

/-- After the prefixes R97 answers just the fitting instruction that has the recorded prefixes and whose bytes the supply holds. -/
theorem decodeTail_ok_iff {P : PrefixSet} {op : Byte} {d : Decoded} (hop : fetch (prefixCount P) = .ok op)
    (hno : prefixOfByte op = none) :
    decodeTail lift fetch p P op = .ok d ↔
      d.wellFormed p = true ∧ d.prefixes = P ∧ d.opcode.head? = some op
        ∧ Supplies fetch (prefixCount P) (bytesAfterPrefixes d) := by
  rw [decoded_wellFormed_iff]
  constructor
  · intro h
    unfold decodeTail at h
    split at h
    · cases h
    · next opcode sh hopcode =>
      split at h
      · cases h
      · next adr hadr =>
        split at h
        · cases h
        · next imm himm =>
          dsimp only at h
          split at h
          · cases h
          · next hlim =>
            cases h
            obtain ⟨hsh, more, rfl, hmore⟩ := decodeOpcode_ok_iff.mp hopcode
            obtain ⟨hwf, hadr⟩ := decodeAddressing_ok_iff.mp hadr
            obtain ⟨hlen, himm⟩ := fetchMany_ok_iff.mp himm
            refine ⟨⟨sh, hsh, hno, rfl, rfl, hwf, hlen, rfl, Nat.not_lt.mp hlim⟩, rfl, rfl, ?_⟩
            rw [bytesAfterPrefixes, supplies_append, supplies_append, supplies_cons, List.length_append, length_addressingBytes,
              ← Nat.add_assoc]
            exact ⟨⟨⟨hop, hmore⟩, hadr⟩, himm⟩
  · obtain ⟨P', opcode, adr, imm, operandSize, addressSize, length⟩ := d
    rintro ⟨⟨sh, hfits⟩, hprefixes, hhead, hbytes⟩
    obtain ⟨hsh, -, haddressSize, hoperandSize, hwf, hlen, hlength, hlim⟩ := hfits
    dsimp only at hprefixes hhead hsh haddressSize hoperandSize hwf hlen hlength hlim
    subst hprefixes haddressSize hoperandSize hlength
    obtain ⟨more, rfl⟩ := List.head?_eq_some_iff.mp hhead
    rw [bytesAfterPrefixes, supplies_append, supplies_append, supplies_cons, List.length_append, length_addressingBytes,
      ← Nat.add_assoc] at hbytes
    obtain ⟨⟨⟨-, hmore⟩, hadr⟩, himm⟩ := hbytes
    have hopcode := (decodeOpcode_ok_iff (lift := lift)).mpr ⟨hsh, more, rfl, hmore⟩
    have hadr := decodeAddressing_ok_iff.mpr ⟨hwf, hadr⟩
    have himm := fetchMany_ok_iff.mpr ⟨hlen, himm⟩
    simp only [decodeTail, hopcode, hadr, himm, if_neg (Nat.not_lt.mpr hlim)]

theorem decodeOpcode_congr {a : Nat} {op : Byte} (h : ∀ k, a ≤ k → fetch k = fetch' k) :
    decodeOpcode lift fetch p a op = decodeOpcode lift fetch' p a op := by
  simp only [decodeOpcode, h a le_rfl]

theorem decodeAddressing_congr {hasModRM : Bool} {size : Size} {a : Nat} (h : ∀ k, a ≤ k → fetch k = fetch' k) :
    decodeAddressing fetch hasModRM size a = decodeAddressing fetch' hasModRM size a := by
  have hmany : ∀ b n, a ≤ b → fetchMany fetch b n = fetchMany fetch' b n :=
    fun b n hb => fetchMany_congr fun k hk => h k (hb.trans hk)
  simp only [decodeAddressing, h a le_rfl, h (a + 1) (by omega), hmany (a + 1) _ (by omega), hmany (a + 2) _ (by omega)]

/-- After the prefixes R97 reads no index below their count. -/
theorem decodeTail_congr {P : PrefixSet} {op : Byte} (h : ∀ k, prefixCount P ≤ k → fetch k = fetch' k) :
    decodeTail lift fetch p P op = decodeTail lift fetch' p P op := by
  have hopcode := decodeOpcode_congr (lift := lift) (p := p) (op := op) fun k (hk : prefixCount P + 1 ≤ k) => h k (by omega)
  have hadr : ∀ hasModRM size n, decodeAddressing fetch hasModRM size (prefixCount P + n)
      = decodeAddressing fetch' hasModRM size (prefixCount P + n) :=
    fun _ _ n => decodeAddressing_congr fun k hk => h k (by omega)
  have himm : ∀ n n' m, fetchMany fetch (prefixCount P + n + n') m = fetchMany fetch' (prefixCount P + n + n') m :=
    fun n n' m => fetchMany_congr fun k hk => h k (by omega)
  simp only [decodeTail, hopcode, hadr, himm]

end Pieces

end Sys2Proof.Machine

/-! The set that a run of prefixes records (R74), and the loop of R97 over them. -/

namespace Sys2Proof.Machine

/-! ## Bytes recorded one after another -/

/-- None of the prefixes repeats a class, neither one of the set nor one of the bytes before it (R74). -/
def Recordable (P : PrefixSet) (qs : List PrefixByte) : Prop :=
  (∀ q ∈ qs, holdsClass P (prefixClass q) = false) ∧ (qs.map prefixClass).Nodup

theorem holdsClass_recordByte (P : PrefixSet) (q : PrefixByte) (c : PrefixClass) :
    holdsClass (recordByte P q) c = (holdsClass P c || decide (c = prefixClass q)) := by
  cases q <;> cases c <;> simp [recordByte, holdsClass, prefixClass]

theorem holdsClass_noPrefixes (c : PrefixClass) : holdsClass noPrefixes c = false := by cases c <;> rfl

@[simp] theorem recordable_nil (P : PrefixSet) : Recordable P [] := ⟨by simp, List.nodup_nil⟩

/-- One byte is recorded, then the others into the set it leaves. -/
theorem recordable_cons {P : PrefixSet} {q : PrefixByte} {qs : List PrefixByte} :
    Recordable P (q :: qs) ↔ holdsClass P (prefixClass q) = false ∧ Recordable (recordByte P q) qs := by
  have hmem : prefixClass q ∉ qs.map prefixClass ↔ ∀ r ∈ qs, prefixClass r ≠ prefixClass q := by simp
  simp only [Recordable, List.map_cons, List.nodup_cons, List.forall_mem_cons, holdsClass_recordByte, Bool.or_eq_false_iff,
    decide_eq_false_iff_not, forall₂_and, hmem]
  tauto

theorem recordable_noPrefixes {qs : List PrefixByte} : Recordable noPrefixes qs ↔ (qs.map prefixClass).Nodup :=
  and_iff_right fun _ _ => holdsClass_noPrefixes _

theorem recordByte_comm {q r : PrefixByte} (h : prefixClass q ≠ prefixClass r) (P : PrefixSet) :
    recordByte (recordByte P q) r = recordByte (recordByte P r) q := by
  cases q <;> cases r <;> first | rfl | exact absurd rfl h

/-- The set that a run of prefixes records does not depend on their order. -/
theorem foldl_recordByte_perm {qs qs' : List PrefixByte} (hn : (qs.map prefixClass).Nodup) (h : qs.Perm qs') (P : PrefixSet) :
    qs.foldl recordByte P = qs'.foldl recordByte P := by
  refine h.foldl_eq' (fun q hq r hr P => ?_) P
  by_cases hqr : prefixClass q = prefixClass r
  · rw [List.inj_on_of_nodup_map hn hq hr hqr]
  · exact recordByte_comm hqr P

@[simp] theorem prefixList_noPrefixes : prefixList noPrefixes = [] := rfl

/-- A byte of a class not held joins the bytes of the set. -/
theorem prefixList_recordByte_perm {P : PrefixSet} {q : PrefixByte} (h : holdsClass P (prefixClass q) = false) :
    (prefixList (recordByte P q)).Perm (q :: prefixList P) := by
  have slot : ∀ xs : List PrefixByte, (xs ++ [q]).Perm (q :: (xs ++ [])) := fun xs => by simp
  obtain ⟨rep, lock, seg, operand, address⟩ := P
  cases q with
  | repeating b =>
    obtain rfl : rep = none := by simpa [holdsClass, prefixClass] using h
    exact .refl _
  | lock =>
    obtain rfl : lock = false := h
    exact (((slot _).append_right _).append_right _).append_right _
  | segment r =>
    obtain rfl : seg = none := by simpa [holdsClass, prefixClass] using h
    exact ((slot _).append_right _).append_right _
  | operandSize =>
    obtain rfl : operand = false := h
    exact (slot _).append_right _
  | addressSize =>
    obtain rfl : address = false := h
    exact slot _

theorem prefixList_foldl_perm {qs : List PrefixByte} : ∀ {P : PrefixSet}, Recordable P qs →
    (prefixList (qs.foldl recordByte P)).Perm (qs ++ prefixList P) := by
  induction qs with
  | nil => exact fun _ => .refl _
  | cons q qs ih =>
    intro P h
    obtain ⟨hq, hqs⟩ := recordable_cons.mp h
    exact (ih hqs).trans (((prefixList_recordByte_perm hq).append_left qs).trans List.perm_middle)

theorem prefixCount_foldl {P : PrefixSet} {qs : List PrefixByte} (h : Recordable P qs) :
    prefixCount (qs.foldl recordByte P) = prefixCount P + qs.length := by
  rw [prefixCount, (prefixList_foldl_perm h).length_eq, List.length_append, prefixCount, Nat.add_comm]

/-- The bytes of a set record that set. -/
theorem foldl_prefixList (P : PrefixSet) : (prefixList P).foldl recordByte noPrefixes = P := by
  obtain ⟨a, b, c, d, e⟩ := P
  cases a <;> cases b <;> cases c <;> cases d <;> cases e <;> rfl

theorem nodup_prefixList (P : PrefixSet) : ((prefixList P).map prefixClass).Nodup := by
  obtain ⟨a, b, c, d, e⟩ := P
  cases a <;> cases b <;> cases c <;> cases d <;> cases e <;> simp [prefixList, prefixClass]

/-! ## The loop over the prefixes -/

section Loop

variable {ε : Type} {lift : Reject → ε} {fetch fetch' : Nat → Except ε Byte} {p : Launch}

/-- The round of the loop on one of the prefixes. -/
theorem decodeLoop_prefix {P : PrefixSet} {q : PrefixByte} (fuel : Nat) (hq : fetch (prefixCount P) = .ok (prefixValue q)) :
    decodeLoop lift fetch p (fuel + 1) P =
      if holdsClass P (prefixClass q) then .error (lift .repeatedPrefixClass)
      else decodeLoop lift fetch p fuel (recordByte P q) := by
  simp only [decodeLoop, hq, prefixOfByte_prefixValue]

/-- The round on the first opcode byte. -/
theorem decodeLoop_opcode {P : PrefixSet} {b : Byte} (fuel : Nat) (hb : fetch (prefixCount P) = .ok b)
    (hno : prefixOfByte b = none) : decodeLoop lift fetch p (fuel + 1) P = decodeTail lift fetch p P b := by
  simp only [decodeLoop, hb, hno]

/-- A run of prefixes with no class twice is recorded. -/
theorem decodeLoop_recordable {qs : List PrefixByte} {fuel : Nat} : ∀ {P : PrefixSet}, Recordable P qs →
    Supplies fetch (prefixCount P) (qs.map prefixValue) →
    decodeLoop lift fetch p (fuel + qs.length) P = decodeLoop lift fetch p fuel (qs.foldl recordByte P) := by
  induction qs with
  | nil => exact fun _ _ => rfl
  | cons q qs ih =>
    intro P h hbytes
    obtain ⟨hq, hqs⟩ := recordable_cons.mp h
    obtain ⟨hfetch, hbytes⟩ := supplies_cons.mp hbytes
    rw [← prefixCount_recordByte hq] at hbytes
    simpa [hq, ← Nat.add_assoc, decodeLoop_prefix _ hfetch] using ih hqs hbytes

/-- A run of prefixes with a class twice is refused, whatever the fuel. -/
theorem decodeLoop_not_recordable {qs : List PrefixByte} : ∀ {fuel : Nat} {P : PrefixSet}, ¬ Recordable P qs →
    Supplies fetch (prefixCount P) (qs.map prefixValue) →
    decodeLoop lift fetch p fuel P = .error (lift .repeatedPrefixClass) := by
  induction qs with
  | nil => exact fun h _ => absurd (recordable_nil _) h
  | cons q qs ih =>
    intro fuel P h hbytes
    obtain ⟨hfetch, hbytes⟩ := supplies_cons.mp hbytes
    cases fuel with
    | zero => rfl
    | succ fuel =>
      rw [decodeLoop_prefix fuel hfetch]
      split
      · rfl
      · next hq =>
        have hq : holdsClass P (prefixClass q) = false := by simpa using hq
        rw [← prefixCount_recordByte hq] at hbytes
        exact ih (fun hqs => h (recordable_cons.mpr ⟨hq, hqs⟩)) hbytes

/-- Where the loop answers, it read a run of prefixes with no class twice and then a first opcode byte. -/
theorem decodeLoop_ok {d : Decoded} : ∀ {fuel : Nat} {P : PrefixSet}, decodeLoop lift fetch p fuel P = .ok d →
    ∃ (qs : List PrefixByte) (op : Byte), Recordable P qs ∧ Supplies fetch (prefixCount P) (qs.map prefixValue)
      ∧ fetch (prefixCount (qs.foldl recordByte P)) = .ok op ∧ prefixOfByte op = none
      ∧ decodeTail lift fetch p (qs.foldl recordByte P) op = .ok d
  | fuel + 1, P, h => by
    unfold decodeLoop at h
    split at h
    · cases h
    · next b hb =>
      split at h
      · next hno => exact ⟨[], b, recordable_nil P, supplies_nil _, hb, hno, h⟩
      · next q hq =>
        split at h
        · cases h
        · next hfree =>
          have hfree : holdsClass P (prefixClass q) = false := by simpa using hfree
          obtain ⟨qs, op, hqs, hbytes, hop⟩ := decodeLoop_ok h
          rw [prefixCount_recordByte hfree] at hbytes
          rw [← prefixValue_of_prefixOfByte hq] at hb
          exact ⟨q :: qs, op, recordable_cons.mpr ⟨hfree, hqs⟩, supplies_cons.mpr ⟨hb, hbytes⟩, hop⟩

/-- The loop reads no index below the count of the prefixes recorded so far. -/
theorem decodeLoop_congr : ∀ {fuel : Nat} {P : PrefixSet}, (∀ k, prefixCount P ≤ k → fetch k = fetch' k) →
    decodeLoop lift fetch p fuel P = decodeLoop lift fetch' p fuel P
  | 0, _, _ => rfl
  | fuel + 1, P, h => by
    unfold decodeLoop
    rw [h _ le_rfl]
    split
    · rfl
    · next b _ =>
      split
      · exact decodeTail_congr h
      · next q _ =>
        split
        · rfl
        · next hfree =>
          have hcount := prefixCount_recordByte (P := P) (q := q) (by simpa using hfree)
          exact decodeLoop_congr fun k hk => h k (by omega)

/-- The decoder of R97 after a run of prefixes with no class twice: five classes leave a round for the opcode. -/
theorem decodeWhole_recordable {qs : List PrefixByte} (hn : (qs.map prefixClass).Nodup)
    (hbytes : Supplies fetch 0 (qs.map prefixValue)) :
    decodeWhole lift fetch p = decodeLoop lift fetch p (5 - qs.length + 1) (qs.foldl recordByte noPrefixes) := by
  have hqs := recordable_noPrefixes.mpr hn
  have hcount := prefixCount_foldl hqs
  have hfive := prefixCount_le_five (qs.foldl recordByte noPrefixes)
  rw [prefixCount_noPrefixes] at hcount
  rw [decodeWhole, ← decodeLoop_recordable hqs hbytes, show 5 - qs.length + 1 + qs.length = 6 by omega]

end Loop

/-! ## The decoder on a list of bytes -/

theorem fetchList_append_right (xs ys : List Byte) {k : Nat} (hk : xs.length ≤ k) :
    fetchList (xs ++ ys) k = fetchList ys (k - xs.length) := by
  simp only [fetchList, List.getElem?_append_right hk]

/-- What the decoder of R97 answers on a list is well-formed, and the list begins with its prefixes, in the order in which they
stood, and the bytes after them. -/
theorem decodeBytes_ok {p : Launch} {bytes : List Byte} {d : Decoded} (h : decodeBytes p bytes = .ok d) :
    d.wellFormed p = true ∧ ∃ qs : List PrefixByte, qs.Perm (prefixList d.prefixes)
      ∧ qs.map prefixValue ++ bytesAfterPrefixes d <+: bytes := by
  obtain ⟨qs, op, hqs, hprefixes, hop, hno, htail⟩ := decodeLoop_ok h
  obtain ⟨hwf, hP, -, hafter⟩ := (decodeTail_ok_iff hop hno).mp htail
  have hperm : (prefixList d.prefixes).Perm qs := by
    simpa [hP] using prefixList_foldl_perm hqs
  refine ⟨hwf, qs, hperm.symm, ?_⟩
  have hall : Supplies (fetchList bytes) 0 (qs.map prefixValue ++ bytesAfterPrefixes d) := by
    refine supplies_append.mpr ⟨hprefixes, ?_⟩
    simpa [prefixCount_foldl hqs] using hafter
  simpa using supplies_fetchList.mp hall

end Sys2Proof.Machine

namespace Sys2Proof

open Sys2Proof.Machine

/-- Settles O13: the loop records the instruction's prefixes and the rest of R97 answers the instruction itself. -/
theorem wholeInstructionsDecodeBack : Obligations.WholeInstructionsDecodeBack := by
  intro p d rest hwf
  obtain ⟨sh, hfits⟩ := decoded_wellFormed_iff.mp hwf
  obtain ⟨op, more, hopcode⟩ : ∃ op more, d.opcode = op :: more :=
    List.exists_cons_of_ne_nil fun hnil => by simpa [hnil, shapeOf] using hfits.shape
  have hno : prefixOfByte op = none := by simpa [hopcode] using hfits.noPrefix
  have hbytes : Supplies (fetchList (encodeWhole d ++ rest)) 0 (encodeWhole d) :=
    supplies_fetchList.mpr (List.prefix_append _ rest)
  rw (occs := .pos [2]) [encodeWhole_eq] at hbytes
  obtain ⟨hprefixes, hafter⟩ := supplies_append.mp hbytes
  rw [List.length_map, Nat.zero_add] at hafter
  have hop : fetchList (encodeWhole d ++ rest) (prefixCount d.prefixes) = .ok op := by
    rw [bytesAfterPrefixes, hopcode] at hafter
    exact (supplies_cons.mp hafter).1
  rw [decodeBytes, decodeWhole_recordable (nodup_prefixList _) hprefixes, foldl_prefixList, decodeLoop_opcode _ hop hno]
  exact (decodeTail_ok_iff hop hno).mpr ⟨hwf, rfl, by rw [hopcode]; rfl, hafter⟩

/-- Settles O12: a run with a class twice is refused within it; else the set recorded does not depend on the order, and the loop
reads no byte of the run again. -/
theorem prefixOrderIsFreeAndRepetitionRefused : Obligations.PrefixOrderIsFreeAndRepetitionRefused := by
  have hsupply : ∀ (qs : List PrefixByte) (rest : List Byte),
      Supplies (fetchList (qs.map prefixValue ++ rest)) 0 (qs.map prefixValue) :=
    fun qs rest => supplies_fetchList.mpr (List.prefix_append _ rest)
  refine ⟨fun p qs rest hrep => ?_, fun p qs qs' rest hn hperm => ?_⟩
  · exact decodeLoop_not_recordable (mt recordable_noPrefixes.mp hrep) (hsupply qs rest)
  · have hn' : (qs'.map prefixClass).Nodup := (hperm.map prefixClass).nodup_iff.mp hn
    rw [decodeBytes, decodeBytes, decodeWhole_recordable hn (hsupply qs rest), decodeWhole_recordable hn' (hsupply qs' rest),
      ← foldl_recordByte_perm hn hperm, ← hperm.length_eq]
    refine decodeLoop_congr fun k hk => ?_
    rw [prefixCount_foldl (recordable_noPrefixes.mpr hn), prefixCount_noPrefixes, Nat.zero_add] at hk
    have hk' : qs'.length ≤ k := hperm.length_eq ▸ hk
    rw [fetchList_append_right (qs.map _) _ (by simpa using hk), fetchList_append_right (qs'.map _) _ (by simpa using hk'),
      List.length_map, List.length_map, hperm.length_eq]

/-- Settles O14: the prefixes read and the fields after them are the first bytes of the list, as many as the length of R88. -/
theorem decodedFieldsAreTheBytes : Obligations.DecodedFieldsAreTheBytes := by
  intro p bytes d h
  obtain ⟨hwf, qs, hperm, hprefix⟩ := decodeBytes_ok h
  obtain ⟨sh, hfits⟩ := decoded_wellFormed_iff.mp hwf
  have hlen : d.length = (qs.map prefixValue ++ bytesAfterPrefixes d).length := by
    rw [hfits.length_eq, List.length_append, List.length_map, hperm.length_eq, prefixCount]
  refine ⟨hwf, hlen ▸ hprefix.length_le, qs, hperm, ?_⟩
  rw [hlen, ← List.prefix_iff_eq_take.mp hprefix]
  simp only [bytesAfterPrefixes, addressingBytes, List.append_assoc]

/-- Settles O15: what the decoder answers is well-formed, and well-formedness counts the fields (R88, R89). -/
theorem lengthIsTheSumOfTheFields : Obligations.LengthIsTheSumOfTheFields := by
  intro p bytes d h
  obtain ⟨sh, hfits⟩ := decoded_wellFormed_iff.mp (decodeBytes_ok h).1
  refine ⟨?_, by simpa using length_disp_mem hfits.addressing, hfits.limit⟩
  rw [hfits.length, Addressing.size]
  cases d.addressing.modrm <;> cases d.addressing.sib <;> simp <;> omega

end Sys2Proof

/-! The fetch of a row, by what its byte is, and the runs of the machine against the decoder of R97. -/

namespace Sys2Proof.Machine

/-! ## Rows and their bytes -/

@[simp] theorem prefixOfInstr_instrOfPrefix (q : PrefixByte) : prefixOfInstr (instrOfPrefix q) = some q := by
  cases q with
  | repeating b => cases b <;> rfl
  | segment r => cases r <;> rfl
  | lock => rfl
  | operandSize => rfl
  | addressSize => rfl

theorem canonical_instrOfPrefix (q : PrefixByte) : (instrOfPrefix q).canonical = instrOfPrefix q := by
  cases q with
  | repeating b => cases b <;> rfl
  | segment r => cases r <;> rfl
  | lock => rfl
  | operandSize => rfl
  | addressSize => rfl

theorem wellFormed_iff {i : Instr} : i.wellFormed = true ↔ i.canonical = i := by simp [Instr.wellFormed]

theorem decodeByte_of_prefixOfByte {b : Byte} {q : PrefixByte} (h : prefixOfByte b = some q) :
    decodeByte b = .ok (instrOfPrefix q) := by
  simp only [decodeByte, h]

theorem decodeByte_cmc : decodeByte 0xF5 = .ok .cmc := by decide

theorem decodeByte_of_no_row {b : Byte} (hno : prefixOfByte b = none) (hcmc : b ≠ 0xF5) :
    decodeByte b = .error .opcodeNotShown := by
  simp only [decodeByte, hno, if_neg hcmc]

/-- A byte is a row where it is one of the prefixes or CMC's opcode (R71 to R73, R93). -/
theorem decodeByte_ok_iff {b : Byte} {i : Instr} :
    decodeByte b = .ok i ↔ (∃ q, prefixOfByte b = some q ∧ i = instrOfPrefix q) ∨ (b = 0xF5 ∧ i = .cmc) := by
  constructor
  · intro h
    cases hq : prefixOfByte b with
    | some q =>
      rw [decodeByte_of_prefixOfByte hq] at h
      exact .inl ⟨q, rfl, (Except.ok.inj h).symm⟩
    | none =>
      by_cases hcmc : b = 0xF5
      · rw [hcmc, decodeByte_cmc] at h
        exact .inr ⟨hcmc, (Except.ok.inj h).symm⟩
      · rw [decodeByte_of_no_row hq hcmc] at h
        cases h
  · rintro (⟨q, hq, rfl⟩ | ⟨rfl, rfl⟩)
    · exact decodeByte_of_prefixOfByte hq
    · exact decodeByte_cmc

theorem wellFormed_of_decodeByte {b : Byte} {i : Instr} (h : decodeByte b = .ok i) : i.wellFormed = true := by
  rcases decodeByte_ok_iff.mp h with ⟨q, -, rfl⟩ | ⟨-, rfl⟩
  · exact wellFormed_iff.mpr (canonical_instrOfPrefix q)
  · rfl

@[simp] theorem isPrefix_instrOfPrefix (q : PrefixByte) : isPrefix (instrOfPrefix q) = true := by simp [isPrefix]

@[simp] theorem isPrefix_cmc : isPrefix .cmc = false := rfl

/-! ## The outcome of a step, by the byte after the recorded prefixes -/

section Step

variable {s : State} {l : Nat} {b : Byte}

theorem step_of_fetchInstr_ok {t : State} {i : Instr} (hf : s.final = false) (h : fetchInstr s = .ok (i, t)) :
    step s = exec i t := by
  simp [step, hf, h]

theorem fetchInstr_prefix {q : PrefixByte} (hb : fetchByte s (prefixCount s.prefixes) = .ok (l, b))
    (hq : prefixOfByte b = some q) : fetchInstr s = .ok (instrOfPrefix q, s.noteFetched l) := by
  simp only [fetchInstr, hb, decodeByte_of_prefixOfByte hq, isPrefix_instrOfPrefix, if_true]

/-- After the prefixes the rest of R97 can stop the fetch. -/
theorem fetchInstr_of_decodeTail_error {e : Stop} (hb : fetchByte s (prefixCount s.prefixes) = .ok (l, b))
    (hno : prefixOfByte b = none) (he : decodeTail stopOfReject (fetchAt s) s.launch s.prefixes b = .error e) :
    fetchInstr s = .error e := by
  by_cases hcmc : b = 0xF5
  · subst hcmc
    simp only [fetchInstr, hb, decodeByte_cmc, isPrefix_cmc, Bool.false_eq_true, if_false, he]
  · simp only [fetchInstr, hb, decodeByte_of_no_row hno hcmc, he]

theorem fetchInstr_cmc {d : Decoded} (hb : fetchByte s (prefixCount s.prefixes) = .ok (l, 0xF5))
    (hd : decodeTail stopOfReject (fetchAt s) s.launch s.prefixes 0xF5 = .ok d) :
    fetchInstr s = .ok (.cmc, s.noteFetched l) := by
  simp only [fetchInstr, hb, decodeByte_cmc, isPrefix_cmc, Bool.false_eq_true, if_false, hd]

theorem fetchInstr_noInstructionPage {d : Decoded} (hb : fetchByte s (prefixCount s.prefixes) = .ok (l, b))
    (hno : prefixOfByte b = none) (hcmc : b ≠ 0xF5)
    (hd : decodeTail stopOfReject (fetchAt s) s.launch s.prefixes b = .ok d) :
    fetchInstr s = .error (.refusal (.noInstructionPage d.opcode)) := by
  simp only [fetchInstr, hb, decodeByte_of_no_row hno hcmc, hd]

/-- A step on one of the prefixes records it, or is refused where its class is held. -/
theorem step_prefix {q : PrefixByte} (hf : s.final = false) (hb : fetchByte s (prefixCount s.prefixes) = .ok (l, b))
    (hq : prefixOfByte b = some q) : step s = recordPrefix q (s.noteFetched l) := by
  rw [step_of_fetchInstr_ok hf (fetchInstr_prefix hb hq), exec_prefix (prefixOfInstr_instrOfPrefix q)]

/-- A step on an opcode that the rest of R97 answers runs CMC for F5 and is refused for every other (log 30). -/
theorem step_opcode {d : Decoded} (hf : s.final = false) (hb : fetchByte s (prefixCount s.prefixes) = .ok (l, b))
    (hno : prefixOfByte b = none) (hd : decodeTail stopOfReject (fetchAt s) s.launch s.prefixes b = .ok d) :
    step s = if d.opcode = [0xF5] then exec .cmc (s.noteFetched l) else .refused (.noInstructionPage d.opcode) := by
  by_cases hcmc : b = 0xF5
  · subst hcmc
    have hopcode : d.opcode = [0xF5] := by
      rw [decodeTail_cmc] at hd
      split at hd
      · cases hd
      · cases hd; rfl
    rw [if_pos hopcode, step_of_fetchInstr_ok hf (fetchInstr_cmc hb hd)]
  · have hfetch : fetchAt s (prefixCount s.prefixes) = .ok b := by simp [fetchAt, hb]
    obtain ⟨-, -, hhead, -⟩ := (decodeTail_ok_iff hfetch hno).mp hd
    have hopcode : d.opcode ≠ [0xF5] := fun h => hcmc (by simpa [h, eq_comm] using hhead)
    rw [if_neg hopcode, step_of_fetchInstr_error hf (fetchInstr_noInstructionPage hb hno hcmc hd), Stop.outcome]

end Step

/-! ## Runs -/

theorem run_succ_of_next {s u : State} (n : Nat) (h : step s = .next u) : core.run (n + 1) s = core.run n u := by
  simp only [Host.Core.run, core, h]

theorem run_succ_of_stop {s : State} {e : Stop} (n : Nat) (h : step s = e.outcome) : core.run (n + 1) s = e.outcome := by
  cases e <;> simp only [Host.Core.run, core, h, Stop.outcome]

/-- A run that goes on past its first step answers that step. -/
theorem run_succ_next {s t : State} {n : Nat} (h : core.run (n + 1) s = .next t) :
    ∃ u, step s = .next u ∧ core.run n u = .next t := by
  cases hs : step s with
  | next u => exact ⟨u, rfl, run_succ_of_next n hs ▸ h⟩
  | fault r => cases (run_succ_of_stop (e := .fault r) n hs).symm.trans h
  | refused r => cases (run_succ_of_stop (e := .refusal r) n hs).symm.trans h

/-! ## The machine follows the loop of R97 -/

theorem sameButProgress_refl (s : State) : s.sameButProgress s := ⟨rfl, rfl, rfl, rfl, rfl, rfl, rfl⟩

theorem sameButProgress_trans {s t u : State} (h : s.sameButProgress t) (h' : t.sameButProgress u) : s.sameButProgress u := by
  obtain ⟨regs, segs, ip, cf, mem, stored, launch⟩ := h
  obtain ⟨regs', segs', ip', cf', mem', stored', launch'⟩ := h'
  exact ⟨regs'.trans regs, segs'.trans segs, ip'.trans ip, cf'.trans cf, mem'.trans mem, stored'.trans stored,
    launch'.trans launch⟩

/-- The state after a step that records `q`, whose byte stands at `l`. -/
def afterPrefix (s : State) (q : PrefixByte) (l : Nat) : State :=
  (s.noteFetched l).setPrefixes (recordByte s.prefixes q)

@[simp] theorem afterPrefix_prefixes (s : State) (q : PrefixByte) (l : Nat) :
    (afterPrefix s q l).prefixes = recordByte s.prefixes q := rfl

@[simp] theorem afterPrefix_launch (s : State) (q : PrefixByte) (l : Nat) : (afterPrefix s q l).launch = s.launch := rfl

@[simp] theorem afterPrefix_final (s : State) (q : PrefixByte) (l : Nat) : (afterPrefix s q l).final = s.final := rfl

/-- Recording a byte changes nothing that a fetch reads. -/
@[simp] theorem fetchAt_afterPrefix (s : State) (q : PrefixByte) (l : Nat) : fetchAt (afterPrefix s q l) = fetchAt s := rfl

theorem sameButProgress_afterPrefix (s : State) (q : PrefixByte) (l : Nat) : s.sameButProgress (afterPrefix s q l) :=
  ⟨rfl, rfl, rfl, rfl, rfl, rfl, rfl⟩

/-- The decoder of R97 from a state in which some prefixes of the instruction are recorded, with `fuel` rounds left. -/
def decodeRest (s : State) (fuel : Nat) : Except Stop Decoded :=
  decodeLoop stopOfReject (fetchAt s) s.launch fuel s.prefixes

theorem decodeRest_afterPrefix (s : State) (q : PrefixByte) (l fuel : Nat) :
    decodeRest (afterPrefix s q l) fuel = decodeLoop stopOfReject (fetchAt s) s.launch fuel (recordByte s.prefixes q) := rfl

/-- A round of the loop and a step of the machine do the same: both stop, both record one of the prefixes and go on, or both are at
the first opcode byte. -/
theorem round_cases {s : State} (hf : s.final = false) (fuel : Nat) :
    (∃ e, decodeRest s (fuel + 1) = .error e ∧ step s = e.outcome)
      ∨ (∃ q l, holdsClass s.prefixes (prefixClass q) = false
          ∧ decodeRest s (fuel + 1) = decodeRest (afterPrefix s q l) fuel ∧ step s = .next (afterPrefix s q l))
      ∨ ∃ l b d, fetchByte s (prefixCount s.prefixes) = .ok (l, b) ∧ prefixOfByte b = none
          ∧ decodeRest s (fuel + 1) = .ok d ∧ decodeTail stopOfReject (fetchAt s) s.launch s.prefixes b = .ok d := by
  cases hb : fetchByte s (prefixCount s.prefixes) with
  | error e =>
    exact .inl ⟨e, by simp [decodeRest, decodeLoop, fetchAt, hb],
      step_of_fetchInstr_error hf (fetchInstr_of_fetchByte_error hb)⟩
  | ok lb =>
    obtain ⟨l, b⟩ := lb
    have hfetch : fetchAt s (prefixCount s.prefixes) = .ok b := by simp [fetchAt, hb]
    cases hq : prefixOfByte b with
    | some q =>
      have hround : decodeRest s (fuel + 1) = _ := decodeLoop_prefix fuel (prefixValue_of_prefixOfByte hq ▸ hfetch)
      have hstep := step_prefix hf hb hq
      cases hheld : holdsClass s.prefixes (prefixClass q) with
      | true =>
        exact .inl ⟨.refusal .repeatedPrefixClass, by simp [hround, hheld, stopOfReject],
          by simp [hstep, recordPrefix, hheld, Stop.outcome]⟩
      | false =>
        exact .inr (.inl ⟨q, l, hheld, by simp [hround, hheld, decodeRest_afterPrefix],
          by simp [hstep, recordPrefix, hheld, afterPrefix]⟩)
    | none =>
      have hround : decodeRest s (fuel + 1) = _ := decodeLoop_opcode fuel hfetch hq
      cases hd : decodeTail stopOfReject (fetchAt s) s.launch s.prefixes b with
      | error e => exact .inl ⟨e, hround.trans hd, step_of_fetchInstr_error hf (fetchInstr_of_decodeTail_error hb hq hd)⟩
      | ok d => exact .inr (.inr ⟨l, b, d, rfl, hq, hround.trans hd, hd⟩)

/-- Where the loop stops, the machine stops in the same way; the rounds are never used up, as a set has at most five bytes. -/
theorem run_of_decodeRest_error {e : Stop} : ∀ {fuel : Nat} {s : State}, s.final = false →
    prefixCount s.prefixes + fuel = 6 → decodeRest s fuel = .error e → core.run fuel s = e.outcome
  | 0, s, _, hcount, _ => by
    have := prefixCount_le_five s.prefixes
    omega
  | fuel + 1, s, hf, hcount, h => by
    rcases round_cases hf fuel with ⟨e', hround, hstep⟩ | ⟨q, l, hfree, hround, hstep⟩ | ⟨_, _, _, _, _, hround, _⟩
    · obtain rfl : e' = e := by simpa [hround] using h
      exact run_succ_of_stop fuel hstep
    · rw [run_succ_of_next fuel hstep]
      refine run_of_decodeRest_error (by simpa using hf) ?_ (hround.symm.trans h)
      rw [afterPrefix_prefixes, prefixCount_recordByte hfree]
      omega
    · simp [hround] at h

/-- Where the loop answers, the machine reaches the first opcode byte with the same prefixes recorded, a step for each. -/
theorem run_of_decodeRest_ok {d : Decoded} : ∀ {fuel : Nat} {s : State}, s.final = false → decodeRest s fuel = .ok d →
    ∃ (n : Nat) (t : State) (l : Nat) (b : Byte), core.run n s = .next t ∧ prefixCount s.prefixes + n = prefixCount t.prefixes
      ∧ t.final = false ∧ s.sameButProgress t ∧ fetchByte t (prefixCount t.prefixes) = .ok (l, b) ∧ prefixOfByte b = none
      ∧ decodeTail stopOfReject (fetchAt t) t.launch t.prefixes b = .ok d
  | 0, _, _, h => by cases h
  | fuel + 1, s, hf, h => by
    rcases round_cases hf fuel with ⟨e, hround, -⟩ | ⟨q, l, hfree, hround, hstep⟩ | ⟨l, b, d', hb, hno, hround, hd⟩
    · simp [hround] at h
    · obtain ⟨n, t, l', b, hrun, hcount, hft, hsame, hrest⟩ :=
        run_of_decodeRest_ok (s := afterPrefix s q l) hf (hround.symm.trans h)
      rw [afterPrefix_prefixes, prefixCount_recordByte hfree] at hcount
      exact ⟨n + 1, t, l', b, (run_succ_of_next n hstep).trans hrun, by omega, hft,
        sameButProgress_trans (sameButProgress_afterPrefix s q l) hsame, hrest⟩
    · obtain rfl : d' = d := by simpa [hround] using h
      exact ⟨0, s, l, b, rfl, rfl, hf, sameButProgress_refl s, hb, hno, hd⟩

/-! ## How far `ip` goes -/

/-- A step that answers moves `ip` by one, or `ip` stays and one more of the prefixes is recorded. -/
theorem step_ip {s t : State} (h : step s = .next t) :
    t.ip = s.ip + 1 ∨ (t.ip = s.ip ∧ prefixCount t.prefixes = prefixCount s.prefixes + 1) := by
  obtain ⟨-, l, b, i, -, -, hexec⟩ := step_next h
  rcases exec_next hexec with ⟨-, -, rfl⟩ | ⟨q, -, hfree, rfl⟩
  · exact .inl rfl
  · exact .inr ⟨rfl, prefixCount_recordByte hfree⟩

/-- A run that answers moves `ip` by the instructions it completes; where it completes none, each step records one of the prefixes. -/
theorem run_ip : ∀ {n : Nat} {s t : State}, core.run n s = .next t →
    ∃ k, k ≤ n ∧ t.ip = s.ip + BitVec.ofNat 32 k ∧ (k = 0 → prefixCount t.prefixes = prefixCount s.prefixes + n)
  | 0, s, t, h => by
    obtain rfl : s = t := Host.Outcome.next.inj h
    exact ⟨0, le_rfl, by simp, fun _ => rfl⟩
  | n + 1, s, t, h => by
    obtain ⟨u, hstep, hrun⟩ := run_succ_next h
    obtain ⟨k, hk, hip, hcount⟩ := run_ip hrun
    rcases step_ip hstep with hu | ⟨hu, hcount'⟩
    · exact ⟨k + 1, by omega, by rw [hip, hu, BitVec.ofNat_add, BitVec.add_assoc, BitVec.add_comm (1 : DWord)]; rfl, by omega⟩
    · exact ⟨k, by omega, by rw [hip, hu], fun h0 => by rw [hcount h0, hcount']; omega⟩

end Sys2Proof.Machine

namespace Sys2Proof

open Sys2Proof.Machine

/-- Settles O26: round by round the machine does what the loop of R97 does, and the step at the opcode what the rest of R97 says. -/
theorem machineFollowsTheWholeDecoder : Obligations.MachineFollowsTheWholeDecoder := by
  intro s hP hf
  have hrest : decodeAt s = decodeRest s 6 := by rw [decodeAt, decodeWhole, decodeRest, hP]
  refine ⟨fun e he => ?_, fun d hd => ?_⟩
  · exact run_of_decodeRest_error hf (by rw [hP, prefixCount_noPrefixes]) (hrest ▸ he)
  · obtain ⟨n, t, l, b, hrun, hcount, hft, hsame, hb, hno, htail⟩ := run_of_decodeRest_ok hf (hrest ▸ hd)
    have hfetch : fetchAt t (prefixCount t.prefixes) = .ok b := by simp [fetchAt, hb]
    obtain ⟨-, hPd, hhead, -⟩ := (decodeTail_ok_iff hfetch hno).mp htail
    obtain rfl : n = prefixCount d.prefixes := by rw [hPd, ← hcount, hP, prefixCount_noPrefixes, Nat.zero_add]
    exact ⟨t, l, b, hrun, hPd.symm, hsame, hPd ▸ hb, hhead, step_opcode hft hb hno htail⟩

/-- Settles O30: six steps that complete no instruction would record six prefixes, and a set has at most five. -/
theorem sixStepsCompleteAnInstruction : Obligations.SixStepsCompleteAnInstruction := by
  intro s t h heq
  obtain ⟨k, hk, hip, hcount⟩ := run_ip h
  have hfive := prefixCount_le_five t.prefixes
  have hk0 : k ≠ 0 := fun h0 => by have := hcount h0; omega
  have : BitVec.ofNat 32 k = 0 := by simpa [hip] using heq
  have : (BitVec.ofNat 32 k).toNat = 0 := by rw [this]; rfl
  rw [BitVec.toNat_ofNat, Nat.mod_eq_of_lt (by omega)] at this
  exact hk0 this

/-- Settles O8: a row other than CMC that answers has set P only, to one byte more. -/
theorem prefixRowsFrame : Obligations.PrefixRowsFrame := by
  intro i s t hi h
  rcases exec_next h with ⟨hcmc, -⟩ | ⟨q, -, hfree, rfl⟩
  · exact absurd hcmc hi
  · exact ⟨fun _ => rfl, fun r => by cases r <;> rfl, fun _ => rfl, rfl, rfl, rfl, rfl, rfl, rfl, prefixCount_recordByte hfree⟩

/-- Settles O9: each such row records through `recordPrefix`, which tests the class first (R74). -/
theorem secondPrefixOfAClassIsRefused : Obligations.SecondPrefixOfAClassIsRefused := by
  intro i q s hq hheld
  rw [exec_prefix hq, recordPrefix, if_pos hheld]

/-- Settles O23: the byte is one of the prefixes, whose row runs at once, or F5, which R97 answers within the length limit. -/
theorem stepRunsTheDecodedInstruction : Obligations.StepRunsTheDecodedInstruction := by
  intro s l b i hf hb hi
  refine ⟨wellFormed_of_decodeByte hi, ?_⟩
  rcases decodeByte_ok_iff.mp hi with ⟨q, hq, rfl⟩ | ⟨rfl, rfl⟩
  · have hne : instrOfPrefix q ≠ .cmc := fun h => by simpa [h, prefixOfInstr] using prefixOfInstr_instrOfPrefix q
    rw [if_neg (fun h => hne h.1), step_of_fetchInstr_ok hf (fetchInstr_prefix hb hq)]
  · have htail := decodeTail_cmc stopOfReject (fetchAt s) s.launch s.prefixes
    by_cases hlim : s.launch.maxInstrLength < prefixCount s.prefixes + 1
    · rw [if_pos hlim] at htail
      rw [if_pos ⟨rfl, hlim⟩,
        step_of_fetchInstr_error hf (fetchInstr_of_decodeTail_error hb prefixOfByte_cmc htail), stopOfReject, Stop.outcome]
    · rw [if_neg hlim] at htail
      rw [if_neg (fun h => hlim h.2), step_of_fetchInstr_ok hf (fetchInstr_cmc hb htail)]

/-- Settles O25: the rest of R97 finds no shape for the byte (R94, D12). -/
theorem unshownOpcodesAreRefused : Obligations.UnshownOpcodesAreRefused := by
  intro s l b hf hb hno hcmc hshape
  have htail : decodeTail stopOfReject (fetchAt s) s.launch s.prefixes b = .error (.refusal .opcodeNotShown) := by
    simp only [decodeTail, decodeOpcode, shapeEntry, if_neg hcmc, hshape, stopOfReject]
  rw [step_of_fetchInstr_error hf (fetchInstr_of_decodeTail_error hb hno htail), Stop.outcome]

end Sys2Proof

/-! The fields of the encoding: the codes of the rows, the fields of ModR/M and SIB, sizes, and the values of bytes (R71 to R95). -/

namespace Sys2Proof.Machine

/-- Every row decodes from its byte to the decoder's name of it (log 2). -/
theorem decode_encode (i : Instr) (rest : List Byte) : decode (encode i ++ rest) = .ok (i.canonical, rest) := by
  have hbyte : Laws.OneByte.Statement i := by
    cases i with
    | cmc => exact Laws.OneByte.cmc
    | rep => exact Laws.OneByte.rep
    | repe => exact Laws.OneByte.repe
    | repne => exact Laws.OneByte.repne
    | lock => exact Laws.OneByte.lock
    | csOverride => exact Laws.OneByte.csOverride
    | ssOverride => exact Laws.OneByte.ssOverride
    | dsOverride => exact Laws.OneByte.dsOverride
    | esOverride => exact Laws.OneByte.esOverride
    | fsOverride => exact Laws.OneByte.fsOverride
    | gsOverride => exact Laws.OneByte.gsOverride
    | operandSizeOverride => exact Laws.OneByte.operandSizeOverride
    | addressSizeOverride => exact Laws.OneByte.addressSizeOverride
  obtain ⟨b, hencode, hdecode⟩ := hbyte
  rw [hencode, List.singleton_append]
  simp only [decode, hdecode]

/-- The eleven values of R73. -/
theorem isSome_prefixOfByte_iff (b : Byte) : (prefixOfByte b).isSome = true ↔
    b ∈ ([0xF0, 0xF2, 0xF3, 0x26, 0x2E, 0x36, 0x3E, 0x64, 0x65, 0x66, 0x67] : List Byte) := by
  revert b; decide

/-! ## The three fields of a byte (R78, R82) -/

theorem toNat_append_add {m n : Nat} (x : BitVec m) (y : BitVec n) : (x ++ y).toNat = x.toNat * 2 ^ n + y.toNat := by
  rw [BitVec.toNat_append, ← Nat.shiftLeft_add_eq_or_of_lt y.isLt, Nat.shiftLeft_eq]

theorem toNat_eq_fields (m : Byte) :
    m.toNat = (modField m).toNat * 64 + (regField m).toNat * 8 + (rmField m).toNat := by
  have hm : m.toNat < 2 ^ 8 := m.isLt
  simp only [modField, regField, rmField, BitVec.extractLsb'_toNat, Nat.shiftRight_eq_div_pow]
  omega

theorem toNat_joinFields (a : BitVec 2) (b c : BitVec 3) : (joinFields a b c).toNat = a.toNat * 64 + b.toNat * 8 + c.toNat := by
  rw [joinFields, toNat_append_add, toNat_append_add]
  omega

theorem fields_joinFields (a : BitVec 2) (b c : BitVec 3) :
    modField (joinFields a b c) = a ∧ regField (joinFields a b c) = b ∧ rmField (joinFields a b c) = c := by
  have hfields := (toNat_eq_fields (joinFields a b c)).symm.trans (toNat_joinFields a b c)
  refine ⟨BitVec.eq_of_toNat_eq ?_, BitVec.eq_of_toNat_eq ?_, BitVec.eq_of_toNat_eq ?_⟩ <;> omega

theorem modField_cases (m : Byte) : modField m = 0 ∨ modField m = 1 ∨ modField m = 2 ∨ modField m = 3 := by
  generalize modField m = a
  revert a; decide

/-! ## The values of bytes (R51, R86, R87) -/

theorem littleEndian_lt (bs : List Byte) : littleEndian bs < 2 ^ (8 * bs.length) := by
  induction bs with
  | nil => simp [littleEndian]
  | cons b bs ih =>
    have hb : b.toNat < 256 := b.isLt
    rw [littleEndian, List.length_cons, Nat.mul_succ, Nat.pow_add]
    omega

/-- Bit `8k + j` of the number of some bytes is bit `j` of byte `k`. -/
theorem testBit_littleEndian {j : Nat} (hj : j < 8) : ∀ (bs : List Byte) (k : Nat) (hk : k < bs.length),
    (littleEndian bs).testBit (8 * k + j) = bs[k].getLsbD j
  | b :: bs, k, hk => by
    have hcons : littleEndian (b :: bs) = 2 ^ 8 * littleEndian bs + b.toNat := Nat.add_comm _ _
    rw [hcons, Nat.testBit_two_pow_mul_add _ b.isLt]
    cases k with
    | zero => rw [if_pos (by omega), Nat.mul_zero, Nat.zero_add]; rfl
    | succ k =>
      rw [if_neg (by omega), show 8 * (k + 1) + j - 8 = 8 * k + j by omega]
      exact testBit_littleEndian hj bs k (Nat.lt_of_succ_lt_succ hk)

theorem immediateOf_eq_none_iff {d : Decoded} : immediateOf d = none ↔ d.imm = [] := by
  unfold immediateOf
  split <;> simp_all

theorem immediateOf_some {d : Decoded} {v : Nat} (h : immediateOf d = some v) : v = littleEndian d.imm := by
  unfold immediateOf at h
  split at h
  · cases h
  · exact (Option.some.inj h).symm

end Sys2Proof.Machine

namespace Sys2Proof

open Sys2Proof.Machine

/-- Settles O21: a disp8 by the library's law of sign extension, the others as sums of their bytes, least significant first (D4). -/
theorem displacementAndImmediateValues : Obligations.DisplacementAndImmediateValues := by
  refine ⟨rfl, rfl, fun d0 => ⟨?_, ?_⟩, fun d0 d1 => ?_, fun d0 d1 d2 d3 => ?_, fun d => immediateOf_eq_none_iff,
    fun d v hv => ?_⟩
  · exact BitVec.toInt_signExtend_of_le (by decide)
  · exact BitVec.toInt_signExtend_of_le (by decide)
  · rw [dispValue16, toNat_append_add]
    omega
  · rw [dispValue32, toNat_append_add, toNat_append_add, toNat_append_add]
    omega
  · rw [immediateOf_some hv]
    exact ⟨littleEndian_lt d.imm, fun k j hk hj => testBit_littleEndian hj d.imm k hk⟩

/-- Settles O10: the rows' bytes by evaluation, and the eleven values over all bytes. -/
theorem prefixCodes : Obligations.PrefixCodes :=
  ⟨by decide, isSome_prefixOfByte_iff⟩

/-- Settles O11: a well-formed row is the decoder's own name of its byte, and REPE/REPZ is not (log 2). -/
theorem rowsDecodeBack : Obligations.RowsDecodeBack := by
  refine ⟨fun i rest hwf => ?_, decode_encode .repe⟩
  rw [decode_encode, wellFormed_iff.mp hwf]

/-- Settles O16: each word is decoded by evaluation. -/
theorem wordsOfTheSpecDecode : Obligations.WordsOfTheSpecDecode :=
  ⟨by decide, by decide, by decide, by decide, by decide, by decide⟩

/-- Settles O17: the fields are the digits of the byte in base 8. -/
theorem modRMByteLayout : Obligations.ModRMByteLayout := ⟨toNat_eq_fields, fields_joinFields⟩

/-- Settles O18: SS, Index and Base of a SIB byte stand where Mod, REG and R/M of a ModR/M byte stand. -/
theorem sibByteLayout : Obligations.SibByteLayout := ⟨toNat_eq_fields, fields_joinFields⟩

/-- Settles O19: under address size 16 there is none, and under 32 each of the 256 bytes is compared with the list. -/
theorem sibFollowsExactlyTheListedValues : Obligations.SibFollowsExactlyTheListedValues := by
  intro size m
  cases size with
  | s16 => simp [hasSIB]
  | s32 => revert m; decide

/-- Settles O20: by the four values of Mod. -/
theorem displacementSizes : Obligations.DisplacementSizes := by
  refine ⟨fun m s => ?_, fun m s => ?_⟩
  · rcases modField_cases m with h | h | h | h <;> simp [dispBytes, h]
  · rcases modField_cases m with h | h | h | h <;> simp [dispBytes, h, ite_and]

/-- Settles O22: the override gives the other of the two sizes. -/
theorem sizeAttributesFromPrefixes : Obligations.SizeAttributesFromPrefixes := by
  have hother : ∀ size : Size, otherSize size = if size = .s16 then .s32 else .s16 := by
    intro size; cases size <;> rfl
  intro p P
  exact ⟨by rw [operandSizeOf, hother], by rw [addressSizeOf, hother]⟩

end Sys2Proof

/-! The rows of the twelve prefixes: where each answers (R74, R97), what the instruction then reads from the set (R95, R154), and CMC after
them (R120 to R132). -/

namespace Sys2Proof.Machine

/-! ## Where a row of the prefixes answers -/

/-- A row whose class has no byte yet records its byte: the converse of `recordPrefix_next`. -/
theorem exec_prefix_free {i : Instr} {q : PrefixByte} {s : State} (hq : prefixOfInstr i = some q)
    (hfree : holdsClass s.prefixes (prefixClass q) = false) : exec i s = .next (s.setPrefixes (recordByte s.prefixes q)) := by
  rw [exec_prefix hq, recordPrefix, if_neg (by simp [hfree])]

/-! ## CMC after one of the prefixes (R132) -/

theorem recordByte_ne_noPrefixes (P : PrefixSet) (q : PrefixByte) : recordByte P q ≠ noPrefixes := by
  intro h
  have hheld : holdsClass (recordByte P q) (prefixClass q) = true := by simp [holdsClass_recordByte]
  rw [h, holdsClass_noPrefixes] at hheld
  cases hheld

theorem exec_cmc_refused_iff {s : State} : exec .cmc s = .refused .prefixOnCMC ↔ s.prefixes ≠ noPrefixes := by
  change execCmc s = _ ↔ _
  by_cases h : s.prefixes = noPrefixes
  · simp [execCmc, h]
  · simp [execCmc, h]

/-- Every row but CMC's leaves a byte in the set where it answers, and CMC does not run there. -/
theorem exec_cmc_after_prefix {i : Instr} {s t : State} (hi : i ≠ .cmc) (h : exec i s = .next t) :
    exec .cmc t = .refused .prefixOnCMC := by
  rcases exec_next h with ⟨hcmc, -⟩ | ⟨q, -, -, rfl⟩
  · exact absurd hcmc hi
  · exact exec_cmc_refused_iff.mpr (recordByte_ne_noPrefixes s.prefixes q)

/-! ## The attributes that the size overrides switch (R95) -/

theorem otherSize_ne (size : Size) : otherSize size ≠ size := by cases size <;> decide

theorem operandSizeOf_recordByte_ne {P : PrefixSet} (p : Launch) (h : P.operandSize = false) :
    operandSizeOf p (recordByte P .operandSize) ≠ operandSizeOf p P := by
  simpa [operandSizeOf, recordByte, h] using otherSize_ne p.defaultOperandSize

theorem addressSizeOf_recordByte_ne {P : PrefixSet} (p : Launch) (h : P.addressSize = false) :
    addressSizeOf p (recordByte P .addressSize) ≠ addressSizeOf p P := by
  simpa [addressSizeOf, recordByte, h] using otherSize_ne p.defaultAddressSize

end Sys2Proof.Machine

namespace Sys2Proof

open Sys2Proof.Machine

/-- Settles O2: CMC tests the set, and the set that any other row leaves holds that row's class. -/
theorem prefixBeforeCmcIsRefused : Obligations.PrefixBeforeCmcIsRefused :=
  ⟨fun _ => exec_cmc_refused_iff, fun _ _ _ => exec_cmc_after_prefix⟩

/-- Settles O4: F2 and F3 are of one class, which is free. -/
theorem repeatPrefixesAreRecorded : Obligations.RepeatPrefixesAreRecorded := by
  refine ⟨rfl, rfl, rfl, fun _ => rfl, fun s h => ?_⟩
  have hfree : ∀ b, holdsClass s.prefixes (prefixClass (.repeating b)) = false := fun _ => congrArg Option.isSome h
  refine ⟨exec_prefix_free rfl (hfree .f3), exec_prefix_free rfl (hfree .f3), exec_prefix_free rfl (hfree .f2), ?_⟩
  rintro t (hrep | hrepe | hrepne)
  · exact exec_cmc_after_prefix (by decide) hrep
  · exact exec_cmc_after_prefix (by decide) hrepe
  · exact exec_cmc_after_prefix (by decide) hrepne

/-- Settles O5: the class of F0 is free; CMC then asks whether the set is empty, not which byte it holds (D16). -/
theorem lockIsRecorded : Obligations.LockIsRecorded :=
  ⟨rfl, fun _ hfree => ⟨exec_prefix_free (q := .lock) rfl hfree, fun _ => exec_cmc_after_prefix (by decide)⟩⟩

/-- Settles O6: the six overrides are of one class, which is free, and a recorded register replaces the default (R154). -/
theorem segmentOverridesAreRecorded : Obligations.SegmentOverridesAreRecorded := by
  refine ⟨rfl, rfl, rfl, rfl, rfl, rfl, fun s h => ?_, fun P r d h => ?_⟩
  · have hfree : ∀ r, holdsClass s.prefixes (prefixClass (.segment r)) = false := fun _ => congrArg Option.isSome h
    exact ⟨exec_prefix_free rfl (hfree .cs), exec_prefix_free rfl (hfree .ss), exec_prefix_free rfl (hfree .ds),
      exec_prefix_free rfl (hfree .es), exec_prefix_free rfl (hfree .fs), exec_prefix_free rfl (hfree .gs)⟩
  · rw [operandSegment, h, Option.getD_some]

/-- Settles O7: each override's class is free; its attribute becomes the other size (R95), and the other attribute does not read
that class. -/
theorem sizeOverridesAreRecorded : Obligations.SizeOverridesAreRecorded := by
  refine ⟨rfl, rfl, fun s hfree => ?_, fun s hfree => ?_⟩
  · exact ⟨_, exec_prefix_free (q := .operandSize) rfl hfree, rfl, operandSizeOf_recordByte_ne s.launch hfree, rfl⟩
  · exact ⟨_, exec_prefix_free (q := .addressSize) rfl hfree, rfl, addressSizeOf_recordByte_ne s.launch hfree, rfl⟩

end Sys2Proof

/-! The addressing forms: the complete functions against Tables 17-2 to 17-4 (R140 to R157), the default segment and the override
(R145, R154), the scaled index (R149), and register operands (R144, R79). -/

namespace Sys2Proof.Machine

/-! ## 16-bit forms (R141 to R145, R156) -/

/-- The eight codes of a three-bit field. -/
theorem code_cases (c : BitVec 3) : c = 0 ∨ c = 1 ∨ c = 2 ∨ c = 3 ∨ c = 4 ∨ c = 5 ∨ c = 6 ∨ c = 7 := by
  revert c; decide

section Forms16

variable (s : State) (o : Option SegReg) {m : Byte} (D : Word)

theorem operand16_register (hmod : modField m = 3) : operand16 s o m D = .reg (rmField m) :=
  if_pos hmod

theorem operand16_memory (hmod : modField m ≠ 3) : operand16 s o m D =
    .mem (operandSegment o (if usesBP (modField m) (rmField m) then .ss else .ds))
      ((base16 s (modField m) (rmField m) + if modField m = 0 ∧ rmField m ≠ 6 then 0 else D).zeroExtend 32) :=
  if_neg hmod

theorem operandByTable172_register (hmod : modField m = 3) : operandByTable172 s o m D = .reg (rmField m) := by
  simp [operandByTable172, table172, hmod]

theorem operandByTable172_memory {base index : Option Reg16} {n : Nat}
    (hrow : table172 (modField m) (rmField m) = .memory base index n) : operandByTable172 s o m D =
    .mem (operandSegment o (defaultSegment16 base index))
      ((component16 s base + component16 s index + if n = 0 then 0 else D).zeroExtend 32) := by
  simp only [operandByTable172, hrow]

end Forms16

/-- A memory row of Table 17-2 has the registers, the default segment and the displacement that R156 gives by Mod and R/M. -/
theorem table172_memory_row (s : State) (m : Byte) (hmod : modField m ≠ 3) :
    ∃ base index n, table172 (modField m) (rmField m) = .memory base index n
      ∧ component16 s base + component16 s index = base16 s (modField m) (rmField m)
      ∧ defaultSegment16 base index = (if usesBP (modField m) (rmField m) then .ss else .ds)
      ∧ (n = 0 ↔ modField m = 0 ∧ rmField m ≠ 6) := by
  rcases modField_cases m with h | h | h | h
  case inr.inr.inr => exact absurd h hmod
  all_goals
    rw [h]
    rcases code_cases (rmField m) with h | h | h | h | h | h | h | h <;> rw [h] <;>
      exact ⟨_, _, _, rfl, by simp [component16, base16], rfl, by decide⟩

theorem operand16_eq_operandByTable172 (s : State) (o : Option SegReg) (m : Byte) (D : Word) :
    operand16 s o m D = operandByTable172 s o m D := by
  by_cases hmod : modField m = 3
  · rw [operand16_register s o D hmod, operandByTable172_register s o D hmod]
  · obtain ⟨base, index, n, hrow, hsum, hseg, hdisp⟩ := table172_memory_row s m hmod
    rw [operand16_memory s o D hmod, operandByTable172_memory s o D hrow, hsum, hseg]
    simp only [hdisp]

/-! ## 32-bit forms (R146 to R153, R157): the rows of Tables 17-3 and 17-4 by the register codes -/

/-- The bytes of the displacement that Mod alone asks for in Table 17-3. -/
def modDispBytes32 (mod : BitVec 2) : Nat := if mod = 0 then 0 else if mod = 1 then 1 else 4

theorem modDispBytes32_eq_zero_iff {mod : BitVec 2} : modDispBytes32 mod = 0 ↔ mod = 0 := by
  revert mod; decide

theorem table173_eq (mod : BitVec 2) (rm : BitVec 3) : table173 mod rm =
    if mod = 3 then .register
    else if rm = 4 then .sib (modDispBytes32 mod)
    else if mod = 0 ∧ rm = 5 then .memory none none 4
    else .memory (some (reg32 rm)) none (modDispBytes32 mod) := by
  revert mod rm; decide

theorem table174Base_eq (mod : BitVec 2) (base : BitVec 3) :
    table174Base mod base = if base = 5 ∧ mod = 0 then none else some (reg32 base) := by
  revert mod base; decide

theorem table174Index_eq (ss : BitVec 2) (index : BitVec 3) :
    table174Index ss index = if index = 4 then none else some (reg32 index, 2 ^ ss.toNat) := by
  revert ss index; decide

theorem defaultSegment32_reg32 (c : BitVec 3) :
    defaultSegment32 (some (reg32 c)) = if c = 4 ∨ c = 5 then .ss else .ds := by
  revert c; decide

/-! ### The scaled index (R149) -/

theorem scaledIndex_none (s : State) {sib : Byte} (h : indexField sib = 4) : scaledIndex s sib = 0 :=
  if_pos h

theorem scaledIndex_register (s : State) {sib : Byte} (h : indexField sib ≠ 4) :
    scaledIndex s sib = s.read32 (reg32 (indexField sib)) <<< (scaleField sib).toNat :=
  if_neg h

/-- The shift of R157 is the product with the factor of Table 17-4. -/
theorem componentScaled_table174Index (s : State) (sib : Byte) :
    componentScaled s (table174Index (scaleField sib) (indexField sib)) = scaledIndex s sib := by
  rw [table174Index_eq]
  by_cases h : indexField sib = 4
  · rw [if_pos h, scaledIndex_none s h, componentScaled]
  · rw [if_neg h, scaledIndex_register s h, componentScaled, BitVec.shiftLeft_eq_mul_twoPow]
    exact congrArg _ (BitVec.eq_of_toNat_eq (by simp [BitVec.toNat_twoPow]))

/-! ### The function of R157, one equation per form -/

section Forms32

variable (s : State) (o : Option SegReg) {m : Byte} (sib : Byte) (D : DWord)

theorem operand32_register (hmod : modField m = 3) : operand32 s o m sib D = .reg (rmField m) :=
  if_pos hmod

/-- A displacement alone. -/
theorem operand32_direct (hmod : modField m = 0) (hrm : rmField m = 5) :
    operand32 s o m sib D = .mem (operandSegment o .ds) D := by
  simp [operand32, hmod, hrm]

/-- The register of R/M as the base. -/
theorem operand32_base (hmod : modField m ≠ 3) (hrm : rmField m ≠ 4) (hbase : ¬ (modField m = 0 ∧ rmField m = 5)) :
    operand32 s o m sib D = .mem (operandSegment o (if rmField m = 5 then .ss else .ds))
      (s.read32 (reg32 (rmField m)) + if modField m = 0 then 0 else D) := by
  simp only [operand32, hmod, hrm, hbase, ne_eq, not_false_eq_true, if_true, if_false]

/-- The scaled index without a base. -/
theorem operand32_index (hmod : modField m = 0) (hrm : rmField m = 4) (hbase : baseField sib = 5) :
    operand32 s o m sib D = .mem (operandSegment o .ds) (scaledIndex s sib + D) := by
  simp [operand32, hmod, hrm, hbase]

/-- The base and the scaled index. -/
theorem operand32_base_index (hmod : modField m ≠ 3) (hrm : rmField m = 4) (hbase : ¬ (baseField sib = 5 ∧ modField m = 0)) :
    operand32 s o m sib D = .mem (operandSegment o (if baseField sib = 4 ∨ baseField sib = 5 then .ss else .ds))
      (s.read32 (reg32 (baseField sib)) + scaledIndex s sib + if modField m = 0 then 0 else D) := by
  simp only [operand32, hmod, hrm, hbase, ne_eq, not_true_eq_false, if_false]

end Forms32

theorem operand32_eq_operandByTable173 (s : State) (o : Option SegReg) (m sib : Byte) (D : DWord) :
    operand32 s o m sib D = operandByTable173 s o m sib D := by
  by_cases hmod : modField m = 3
  · rw [operand32_register s o sib D hmod]
    simp only [operandByTable173, table173_eq, hmod, if_true]
  by_cases hrm : rmField m = 4
  · by_cases hbase : baseField sib = 5 ∧ modField m = 0
    · obtain ⟨hb, h0⟩ := hbase
      rw [operand32_index s o sib D h0 hrm hb]
      simp [operandByTable173, table173_eq, table174Base_eq, componentScaled_table174Index, h0, hrm, hb, component32,
        defaultSegment32]
    · rw [operand32_base_index s o sib D hmod hrm hbase]
      simp only [operandByTable173, table173_eq, table174Base_eq, componentScaled_table174Index, hmod, hrm, hbase, component32,
        defaultSegment32_reg32, modDispBytes32_eq_zero_iff, if_true, if_false, reduceCtorEq, Option.map_some, Option.getD_some]
  · by_cases hbase : modField m = 0 ∧ rmField m = 5
    · obtain ⟨h0, h5⟩ := hbase
      rw [operand32_direct s o sib D h0 h5]
      simp [operandByTable173, table173_eq, h0, h5, component32, defaultSegment32]
    · rw [operand32_base s o sib D hmod hrm hbase]
      simp only [operandByTable173, table173_eq, hmod, hrm, hbase, component32, defaultSegment32_reg32,
        modDispBytes32_eq_zero_iff, if_false, false_or, Option.map_some, Option.getD_some]

/-- Where no SIB byte follows (R77), the operand does not read one. -/
theorem operand32_without_sib (s : State) (o : Option SegReg) {m : Byte} (D : DWord) (h : hasSIB .s32 m = false)
    (sib sib' : Byte) : operand32 s o m sib D = operand32 s o m sib' D := by
  by_cases hmod : modField m = 3
  · rw [operand32_register s o sib D hmod, operand32_register s o sib' D hmod]
  · have hrm : modField m ≠ 3 → rmField m ≠ 4 := by simpa [hasSIB] using h
    by_cases hbase : modField m = 0 ∧ rmField m = 5
    · rw [operand32_direct s o sib D hbase.1 hbase.2, operand32_direct s o sib' D hbase.1 hbase.2]
    · rw [operand32_base s o sib D hmod (hrm hmod) hbase, operand32_base s o sib' D hmod (hrm hmod) hbase]

/-! ## The operand of a decoded instruction (R140) -/

theorem operandOf_s16 (s : State) {d : Decoded} (h : d.addressSize = .s16) : operandOf s d =
    d.addressing.modrm.map (fun m => operand16 s d.prefixes.segment m (dispValue16 d.addressing.disp)) := by
  cases hm : d.addressing.modrm with
  | none => simp only [operandOf, hm, Option.map_none]
  | some m => simp only [operandOf, hm, h, Option.map_some]

theorem operandOf_s32 (s : State) {d : Decoded} (h : d.addressSize = .s32) : operandOf s d =
    d.addressing.modrm.map
      (fun m => operand32 s d.prefixes.segment m (d.addressing.sib.getD 0) (dispValue32 d.addressing.disp)) := by
  cases hm : d.addressing.modrm with
  | none => simp only [operandOf, hm, Option.map_none]
  | some m => simp only [operandOf, hm, h, Option.map_some]

/-! ## The override (R154) -/

/-- An operand as a function of the override: a register whatever it is, or one offset in the segment it picks. -/
def OverrideActsOnSegment (f : Option SegReg → Operand) : Prop :=
  (∃ c, ∀ o, f o = .reg c) ∨ ∃ dflt ea, ∀ o, f o = .mem (operandSegment o dflt) ea

theorem operand16_overrideActsOnSegment (s : State) (m : Byte) (D : Word) :
    OverrideActsOnSegment (fun o => operand16 s o m D) := by
  by_cases hmod : modField m = 3
  · exact .inl ⟨_, fun o => operand16_register s o D hmod⟩
  · exact .inr ⟨_, _, fun o => operand16_memory s o D hmod⟩

theorem operand32_overrideActsOnSegment (s : State) (m sib : Byte) (D : DWord) :
    OverrideActsOnSegment (fun o => operand32 s o m sib D) := by
  by_cases hmod : modField m = 3
  · exact .inl ⟨_, fun o => operand32_register s o sib D hmod⟩
  refine .inr ?_
  by_cases hrm : rmField m = 4
  · by_cases hbase : baseField sib = 5 ∧ modField m = 0
    · exact ⟨_, _, fun o => operand32_index s o sib D hbase.2 hrm hbase.1⟩
    · exact ⟨_, _, fun o => operand32_base_index s o sib D hmod hrm hbase⟩
  · by_cases hbase : modField m = 0 ∧ rmField m = 5
    · exact ⟨_, _, fun o => operand32_direct s o sib D hbase.1 hbase.2⟩
    · exact ⟨_, _, fun o => operand32_base s o sib D hmod hrm hbase⟩

section Override

variable {f : Option SegReg → Operand} (hf : OverrideActsOnSegment f)
include hf

theorem OverrideActsOnSegment.register {c : BitVec 3} (r : SegReg) (h : f none = .reg c) : f (some r) = .reg c := by
  rcases hf with ⟨c', hreg⟩ | ⟨dflt, ea, hmem⟩
  · rw [hreg, ← hreg none, h]
  · rw [hmem] at h
    cases h

theorem OverrideActsOnSegment.memory {d : SegReg} {ea : DWord} (r : SegReg) (h : f none = .mem d ea) :
    f (some r) = .mem r ea := by
  rcases hf with ⟨c, hreg⟩ | ⟨dflt, ea', hmem⟩
  · rw [hreg] at h
    cases h
  · rw [hmem] at h ⊢
    cases h
    rfl

end Override

/-! ## Register operands (R144, R79) -/

theorem hasSIB_register {m : Byte} (hmod : modField m = 3) (size : Size) : hasSIB size m = false := by
  simp [hasSIB, hmod]

theorem dispBytes_register {m : Byte} (hmod : modField m = 3) (size : Size) (x : Option Byte) : dispBytes size m x = 0 := by
  cases size with
  | s16 => simp [dispBytes, hmod]
  | s32 => simp [dispBytes, hmod]

/-- The low bits of a value, zero-extended to carry them. -/
theorem zeroExtend_extractLsb'_zero {w : Nat} (n : Nat) (v : BitVec w) :
    (v.extractLsb' 0 n).zeroExtend w = BitVec.ofNat w (v.toNat % 2 ^ n) := by
  apply BitVec.eq_of_toNat_eq
  simp

@[simp] theorem State.read8_write8_same (s : State) (r : Reg8) (v : Byte) : (s.write8 r v).read8 r = v := by
  apply BitVec.eq_of_getLsbD_eq
  intro k hk
  cases hr : isHigh8 r with
  | false => rw [State.getLsbD_read8_low _ hr hk, State.getLsbD_read32_write8_low s hr, if_pos hk]
  | true =>
    rw [State.getLsbD_read8_high _ hr hk, State.getLsbD_read32_write8_high s hr, if_pos (by omega), Nat.add_sub_cancel]

theorem readRegister_writeRegister_same (s : State) (c : BitVec 3) (w : AccessWidth) (v : DWord) :
    readRegister (writeRegister s c w v) c w = BitVec.ofNat 32 (v.toNat % 2 ^ (8 * accessBytes w)) := by
  cases w with
  | byte => rw [writeRegister, readRegister, State.read8_write8_same]; exact zeroExtend_extractLsb'_zero 8 v
  | word => rw [writeRegister, readRegister, State.read16_write16_same]; exact zeroExtend_extractLsb'_zero 16 v
  | dword =>
    rw [writeRegister, readRegister, State.read32_write32_same]
    exact (by simp : v = (v.extractLsb' 0 32).zeroExtend 32).trans (zeroExtend_extractLsb'_zero 32 v)

/-- Whatever the width, a register operand is written by a write of its 32-bit register. -/
theorem writeRegister_frame (s : State) (c : BitVec 3) (w : AccessWidth) (v : DWord) :
    writeRegister s c w v = { s with regs := (writeRegister s c w v).regs } := by
  cases w with
  | byte =>
    obtain ⟨x, hx⟩ := s.write8_frame (reg8 c) (v.extractLsb' 0 8)
    rw [writeRegister, hx]
    rfl
  | word => rfl
  | dword => rfl

section RegField

variable {sh : Shape} {d : Decoded} {m : Byte}

theorem regOperandOf_register {isByte : Bool} (hm : d.addressing.modrm = some m) (hr : sh.regField = .register isByte) :
    regOperandOf sh d = some (.reg (regField m), if isByte then .byte else sizeWidth d.operandSize) := by
  simp only [regOperandOf, regFieldWidth, hm, hr]

theorem regOperandOf_none_of_regField (h : ∀ isByte, sh.regField ≠ .register isByte) : regOperandOf sh d = none := by
  rw [Option.eq_none_iff_forall_ne_some]
  rintro ⟨o, w⟩ hsome
  obtain ⟨-, isByte, -, hr, -, -⟩ := regOperandOf_some hsome
  exact h isByte hr

theorem regOperandOf_none_of_modrm (hm : d.addressing.modrm = none) : regOperandOf sh d = none := by
  simp only [regOperandOf, hm]

theorem opcodeDigit_digit (hr : sh.regField = .digit) : opcodeDigit sh d = d.addressing.modrm.map regField := by
  simp only [opcodeDigit, hr]

theorem opcodeDigit_of_ne_digit (h : sh.regField ≠ .digit) : opcodeDigit sh d = none := by
  unfold opcodeDigit
  split
  next hr => exact absurd hr h
  next => rfl

theorem opcodeDigit_none_of_modrm (hm : d.addressing.modrm = none) : opcodeDigit sh d = none := by
  unfold opcodeDigit
  split
  next => rw [hm, Option.map_none]
  next => rfl

end RegField

end Sys2Proof.Machine

namespace Sys2Proof

open Sys2Proof.Machine

/-- Settles O43: the row of Table 17-2 that Mod and R/M pick has R156's registers, segment and displacement. -/
theorem operand16AgreesWithTable172 : Obligations.Operand16AgreesWithTable172 :=
  ⟨operand16_eq_operandByTable172, fun s d h => by simp only [operandOf_s16 s h, operand16_eq_operandByTable172]⟩

/-- Settles O44: the rows of Tables 17-3 and 17-4 name their registers by code, as R157 does; without a SIB byte neither reads one. -/
theorem operand32AgreesWithTables173And174 : Obligations.Operand32AgreesWithTables173And174 := by
  refine ⟨operand32_eq_operandByTable173, fun s d sib h hsib => ?_⟩
  rw [operandOf_s32 s h]
  cases hm : d.addressing.modrm with
  | none => rfl
  | some m =>
    rw [Option.map_some, Option.map_some, ← operand32_eq_operandByTable173]
    rcases hsib with hsib | hno
    · rw [hsib, Option.getD_some]
    · rw [operand32_without_sib s _ _ (hno m hm) _ sib]

/-- Settles O45: a write of a register operand is one register write of its width, read back by the laws of the views (R23). -/
theorem registerOperandForms : Obligations.RegisterOperandForms := by
  refine ⟨fun s o m sib D D' hmod => ?_, fun s c w v => ⟨rfl, writeRegister s c w v, rfl, writeRegister_frame s c w v, ?_⟩,
    fun _ _ _ _ _ => ⟨rfl, rfl⟩, fun sh d m hm => ⟨fun isByte hr => ?_, fun hr => ?_, fun hr => ?_⟩,
    fun sh d hm => ⟨opcodeDigit_none_of_modrm hm, regOperandOf_none_of_modrm hm⟩⟩
  · exact ⟨operand16_register s o D hmod, operand32_register s o sib D' hmod, hasSIB_register hmod, dispBytes_register hmod,
      rfl, rfl, rfl⟩
  · refine ⟨congrArg Except.ok (readRegister_writeRegister_same s c w v), ?_, ?_, ?_⟩
    · rintro rfl; rfl
    · rintro rfl; rfl
    · rintro rfl
      exact ⟨s.read32_write32_same (reg32 c) v, fun r hr => s.read32_write32_other v hr⟩
  · refine ⟨_, regOperandOf_register hm hr, opcodeDigit_of_ne_digit (by simp [hr]), ?_, ?_, ?_⟩
    · rintro rfl s; rfl
    · rintro rfl hsize s; rw [hsize]; rfl
    · rintro rfl hsize s; rw [hsize]; rfl
  · exact ⟨by rw [opcodeDigit_digit hr, hm, Option.map_some], regOperandOf_none_of_regField (by simp [hr])⟩
  · exact ⟨opcodeDigit_of_ne_digit (by simp [hr]), regOperandOf_none_of_regField (by simp [hr])⟩

/-- Settles O46: without an override the segment is the default, which tests for BP. -/
theorem defaultSegmentOf16BitForms : Obligations.DefaultSegmentOf16BitForms := by
  intro s m D hmod
  rw [operand16_memory s none D hmod]
  simp only [operandSegment, Option.getD_none, usesBP, decide_eq_true_eq]
  exact ⟨_, rfl⟩

/-- Settles O47: a shift to the left is a product with a power of two (D9). -/
theorem scaledIndexIsRegisterTimesPowerOfTwo : Obligations.ScaledIndexIsRegisterTimesPowerOfTwo := by
  refine fun s sib => ⟨scaledIndex_none s, fun h => ?_⟩
  rw [scaledIndex_register s h, BitVec.toNat_shiftLeft, Nat.shiftLeft_eq]

/-- Settles O48: under either address size the override is read where the segment is picked and nowhere else. -/
theorem overrideReplacesTheSegmentOnly : Obligations.OverrideReplacesTheSegmentOnly := by
  intro s r m sib D D'
  have h16 := operand16_overrideActsOnSegment s m D
  have h32 := operand32_overrideActsOnSegment s m sib D'
  exact ⟨fun _ => h16.register r, fun _ _ => h16.memory r, fun _ => h32.register r, fun _ _ => h32.memory r⟩

end Sys2Proof

/-! CMC and the frame of a step: what a row that answers leaves as it was, and the two ways in which it makes progress (R26, R97, R170). -/

namespace Sys2Proof.Machine

/-! ## Names that read one field of the state -/

theorem State.read32_congr {s t : State} (h : t.regs = s.regs) (r : Reg32) : t.read32 r = s.read32 r := by
  rw [State.read32, State.read32, h]

theorem State.selector_congr {s t : State} (h : t.segs = s.segs) (r : SegReg) : t.selector r = s.selector r := by
  cases r <;> simp only [State.selector, h]

/-! ## The effect of CMC (R170) -/

/-- An empty set leaves nothing to clear, so CF and `ip` are all that CMC sets. -/
theorem setCF_advance_of_noPrefixes {s : State} (hP : s.prefixes = noPrefixes) (b : Bool) :
    (s.setCF b).advance 1 = { s with cf := b, ip := s.ip + 1 } := by
  rw [hP]; rfl

/-- Where the set is empty CMC answers: the converse of `execCmc_next`. -/
theorem exec_cmc_of_noPrefixes {s : State} (hP : s.prefixes = noPrefixes) :
    exec .cmc s = .next { s with cf := !s.cf, ip := s.ip + 1 } := by
  rw [← setCF_advance_of_noPrefixes hP]
  exact if_pos hP

/-- Where CMC answers, the set was empty and the next state differs in CF and `ip` only. -/
theorem exec_cmc_next {s t : State} (h : exec .cmc s = .next t) :
    s.prefixes = noPrefixes ∧ t = { s with cf := !s.cf, ip := s.ip + 1 } := by
  obtain ⟨hP, ht⟩ := execCmc_next h
  exact ⟨hP, ht.trans (setCF_advance_of_noPrefixes hP _)⟩

/-! ## What any row that answers leaves as it was, and what it moves -/

/-- No row sets a register, memory, a launch parameter or a note of locations. -/
theorem exec_frame {i : Instr} {s t : State} (h : exec i s = .next t) :
    t.regs = s.regs ∧ t.segs = s.segs ∧ t.mem = s.mem ∧ t.launch = s.launch ∧ t.fetched = s.fetched ∧ t.stored = s.stored := by
  rcases exec_next h with ⟨-, -, rfl⟩ | ⟨q, -, -, rfl⟩
  · exact ⟨rfl, rfl, rfl, rfl, rfl, rfl⟩
  · exact ⟨rfl, rfl, rfl, rfl, rfl, rfl⟩

/-- A row completes the instruction, which is CMC with the set empty, or records one more of the prefixes (log 1). -/
theorem exec_progress {i : Instr} {s t : State} (h : exec i s = .next t) :
    (t.ip = s.ip + 1 ∧ t.cf = !s.cf ∧ s.prefixes = noPrefixes ∧ t.prefixes = noPrefixes)
      ∨ (t.ip = s.ip ∧ t.cf = s.cf ∧ prefixCount t.prefixes = prefixCount s.prefixes + 1) := by
  rcases exec_next h with ⟨-, hP, rfl⟩ | ⟨q, -, hfree, rfl⟩
  · exact .inl ⟨rfl, rfl, hP, rfl⟩
  · exact .inr ⟨rfl, rfl, prefixCount_recordByte hfree⟩

end Sys2Proof.Machine

namespace Sys2Proof

open Sys2Proof.Machine

/-- Settles O29: a step notes one fetched location and runs a row; the fetch changes nothing else. -/
theorem stepFrame : Obligations.StepFrame := by
  intro s t h
  obtain ⟨-, l, b, i, -, -, hexec⟩ := step_next h
  obtain ⟨hregs, hsegs, hmem, hlaunch, -, hstored⟩ := exec_frame hexec
  have hprogress := exec_progress hexec
  exact ⟨State.read32_congr hregs, State.selector_congr hsegs, fun a => congrArg (Memory.read · a) hmem, hlaunch, hstored, hprogress⟩

/-- Settles O1: CMC tests the set and then sets CF and `ip`; the second CMC complements the complement. -/
theorem cmcComplementsTheCarryFlag : Obligations.CmcComplementsTheCarryFlag := by
  refine ⟨rfl, decodeByte_cmc, fun _ => exec_cmc_of_noPrefixes, fun _ => exec_cmc_refused_iff.mpr, fun s e hf he => ?_,
    fun s t u ht hu => ?_⟩
  · exact step_of_fetchInstr_error hf (fetchInstr_of_fetchByte_error he)
  · obtain ⟨-, rfl⟩ := exec_cmc_next ht
    obtain ⟨-, rfl⟩ := exec_cmc_next hu
    have hip : s.ip + 1 + 1 = s.ip + 2 := BitVec.add_assoc s.ip 1 1
    simp only [Bool.not_not, hip]

/-- Settles O3: the frame of every row, and CMC leaves the set as empty as it requires it. -/
theorem cmcFrame : Obligations.CmcFrame := by
  intro s t h
  obtain ⟨hP, ht⟩ := exec_cmc_next h
  obtain ⟨hregs, hsegs, hmem, hlaunch, hfetched, hstored⟩ := exec_frame h
  have hvm : t.vm = s.vm := by rw [State.vm, State.vm, hlaunch]
  have hprefixes : t.prefixes = noPrefixes := by rw [ht, hP]
  exact ⟨State.read32_congr hregs, State.selector_congr hsegs, fun a => congrArg (Memory.read · a) hmem, hlaunch, hvm, hfetched,
    hstored, hprefixes⟩

end Sys2Proof

/-! PROOFS of the statements about the functions of the Operation paragraphs (43_operation_functions.md). First the stack (R181, R182): a
move of its pointer reaches ESP only, a move up undoes a move down, and a push places the value's bytes. -/

namespace Sys2Proof.Machine

/-! ## Registers: one written twice, one written with what it holds, and the 16-bit views of equal registers -/

theorem Regs.set_set (g : Regs) (r : Reg32) (a b : DWord) : (g.set r a).set r b = g.set r b := by cases r <;> rfl

theorem Regs.set_get (g : Regs) (r : Reg32) : g.set r (g.get r) = g := by cases r <;> rfl

theorem State.write32_write32 (s : State) (r : Reg32) (a b : DWord) : (s.write32 r a).write32 r b = s.write32 r b := by
  simp [State.write32, Regs.set_set]

theorem State.write32_read32 (s : State) (r : Reg32) : s.write32 r (s.read32 r) = s := by
  simp [State.write32, State.read32, Regs.set_get]

theorem State.write16_write16 (s : State) (r : Reg16) (a b : Word) : (s.write16 r a).write16 r b = s.write16 r b := by
  rw [State.write16, State.write16_keeps_high, State.write16, State.write32_write32, State.write16]

theorem State.write16_read16 (s : State) (r : Reg16) : s.write16 r (s.read16 r) = s := by
  have halves : (s.read32 (parent16 r)).extractLsb' 16 16 ++ s.read16 r = s.read32 (parent16 r) :=
    (BitVec.extractLsb'_append_extractLsb'_eq_extractLsb' rfl).trans BitVec.extractLsb'_eq_self
  rw [State.write16, halves, State.write32_read32]

theorem State.read16_congr {s t : State} (h : t.regs = s.regs) (r : Reg16) : t.read16 r = s.read16 r := by
  rw [State.read16, State.read16, State.read32_congr h]

/-! ## The stack pointer -/

/-- The second state is the first but for ESP. -/
structure SameButEsp (s t : State) : Prop where
  mem : t.mem = s.mem
  cf : t.cf = s.cf
  ip : t.ip = s.ip
  segs : t.segs = s.segs
  prefixes : t.prefixes = s.prefixes
  launch : t.launch = s.launch
  fetched : t.fetched = s.fetched
  stored : t.stored = s.stored
  others : ∀ r, r ≠ .esp → t.read32 r = s.read32 r

theorem sameButEsp_write32 (s : State) (v : DWord) : SameButEsp s (s.write32 .esp v) :=
  ⟨rfl, rfl, rfl, rfl, rfl, rfl, rfl, rfl, fun _ hr => s.read32_write32_other v hr⟩

theorem stackDown_sameButEsp (s : State) (n : Nat) : SameButEsp s (stackDown s n) := by
  obtain ⟨v, hv⟩ := stackDown_eq s n
  rw [hv]
  exact sameButEsp_write32 s v

theorem stackUp_sameButEsp (s : State) (n : Nat) : SameButEsp s (stackUp s n) := by
  obtain ⟨v, hv⟩ := stackUp_eq s n
  rw [hv]
  exact sameButEsp_write32 s v

section StackAddrSize

variable {s : State}

theorem stackOffset_s16 (h : s.launch.stackAddrSize = .s16) : stackOffset s = (s.read16 .sp).toNat := by
  simp only [stackOffset, h]

theorem stackOffset_s32 (h : s.launch.stackAddrSize = .s32) : stackOffset s = (s.read32 .esp).toNat := by
  simp only [stackOffset, h]

theorem stackDown_s16 (h : s.launch.stackAddrSize = .s16) (n : Nat) :
    stackDown s n = s.write16 .sp (s.read16 .sp - BitVec.ofNat 16 n) := by
  simp only [stackDown, h]

theorem stackDown_s32 (h : s.launch.stackAddrSize = .s32) (n : Nat) :
    stackDown s n = s.write32 .esp (s.read32 .esp - BitVec.ofNat 32 n) := by
  simp only [stackDown, h]

theorem stackUp_s16 (h : s.launch.stackAddrSize = .s16) (n : Nat) :
    stackUp s n = s.write16 .sp (s.read16 .sp + BitVec.ofNat 16 n) := by
  simp only [stackUp, h]

theorem stackUp_s32 (h : s.launch.stackAddrSize = .s32) (n : Nat) :
    stackUp s n = s.write32 .esp (s.read32 .esp + BitVec.ofNat 32 n) := by
  simp only [stackUp, h]

end StackAddrSize

/-- At either width the sums are modular, so that the pointer comes back to where it was (D19). -/
theorem stackUp_stackDown (s : State) (n : Nat) : stackUp (stackDown s n) n = s := by
  have hlaunch := (stackDown_sameButEsp s n).launch
  cases h : s.launch.stackAddrSize with
  | s16 =>
    rw [stackUp_s16 (by rw [hlaunch, h]), stackDown_s16 h, State.read16_write16_same, State.write16_write16, BitVec.sub_add_cancel,
      State.write16_read16]
  | s32 =>
    rw [stackUp_s32 (by rw [hlaunch, h]), stackDown_s32 h, State.read32_write32_same, State.write32_write32, BitVec.sub_add_cancel,
      State.write32_read32]

/-- The move of the pointer and a store do not meet: the one reaches the registers, the other memory. -/
theorem stackUp_store (s : State) (ls : List Nat) (vs : List Byte) (n : Nat) :
    stackUp (s.store ls vs) n = (stackUp s n).store ls vs := by
  cases h : s.launch.stackAddrSize with
  | s16 => rw [stackUp_s16 h, stackUp_s16 (s := s.store ls vs) h]; rfl
  | s32 => rw [stackUp_s32 h, stackUp_s32 (s := s.store ls vs) h]; rfl

/-! ## Push and Pop -/

@[simp] theorem accessBytes_sizeWidth (size : Size) : accessBytes (sizeWidth size) = sizeBytes size := by cases size <;> rfl

/-- Where the bytes at the new pointer are located, a push stores the value's bytes there, and of the registers it moves the pointer
only. -/
theorem push_places {s : State} {size : Size} {ls : List Nat} (v : DWord)
    (hls : locate s (.segment .ss) (stackOffset (stackDown s (sizeBytes size))) (sizeWidth size) .store 0 (sizeBytes size) = .ok ls)
    (hn : ls.Nodup) (hf : ∀ l ∈ ls, l ∉ s.fetched) :
    ∃ t, push s size v = .ok t ∧ t.regs = (stackDown s (sizeBytes size)).regs
      ∧ (∀ k (hk : k < ls.length), t.mem.read ls[k] = v.extractLsb' (8 * k) 8)
      ∧ (∀ a, a ∉ ls → t.mem.read a = s.mem.read a)
      ∧ t.cf = s.cf ∧ t.ip = s.ip ∧ t.segs = s.segs ∧ t.prefixes = s.prefixes ∧ t.launch = s.launch := by
  have moved := stackDown_sameButEsp s (sizeBytes size)
  have hlen : ls.length = (bytesOf v (accessBytes (sizeWidth size))).length := by
    rw [bytesOf_length, accessBytes_sizeWidth, (locate_ok hls).1]
  have hpush : push s size v = .ok ((stackDown s (sizeBytes size)).store ls (bytesOf v (accessBytes (sizeWidth size)))) :=
    memWrite_of_locate v (by rw [accessBytes_sizeWidth, locate_congr moved.launch moved.ip, hls]) (by rwa [moved.fetched])
  refine ⟨_, hpush, rfl, fun k hk => ?_, fun a ha => ?_, moved.cf, moved.ip, moved.segs, moved.prefixes, moved.launch⟩
  · rw [State.store_mem, getElem_read_writeAll _ hn hlen hk, getElem_bytesOf]
  · rw [State.store_mem, Memory.read_writeAll_other _ _ _ ha, moved.mem]

theorem pop_of_memRead {s : State} {size : Size} {v : DWord} (h : memRead s (.segment .ss) (stackOffset s) (sizeWidth size) = .ok v) :
    pop s size = .ok (v, stackUp s (sizeBytes size)) := by
  simp only [pop, h]

theorem pop_of_memRead_error {s : State} {size : Size} {e : Stop}
    (h : memRead s (.segment .ss) (stackOffset s) (sizeWidth size) = .error e) : pop s size = .error e := by
  simp only [pop, h]

theorem stackOffset_eq_ite (s : State) :
    stackOffset s = if s.launch.stackAddrSize = .s16 then (s.read16 .sp).toNat else (s.read32 .esp).toNat := by
  cases h : s.launch.stackAddrSize with
  | s16 => rw [stackOffset_s16 h, if_pos rfl]
  | s32 => rw [stackOffset_s32 h, if_neg (by decide)]

theorem push_keeps_inv {s t : State} {size : Size} {v : DWord} (hs : s.inv) (h : push s size v = .ok t) : t.inv := by
  obtain ⟨ls, -, hf, rfl⟩ := push_ok h
  have moved := stackDown_sameButEsp s (sizeBytes size)
  exact State.store_inv ((State.inv_congr moved.mem moved.fetched moved.stored).mpr hs) (by rwa [moved.fetched])

/-- Where the loads of the stack are located as its stores are, what a push stored is read back. -/
theorem memRead_push {s t : State} {size : Size} {v : DWord} {ls : List Nat} (h : push s size v = .ok t)
    (hstore : locate t (.segment .ss) (stackOffset t) (sizeWidth size) .store 0 (sizeBytes size) = .ok ls)
    (hload : locate t (.segment .ss) (stackOffset t) (sizeWidth size) .load 0 (sizeBytes size) = .ok ls) (hn : ls.Nodup) :
    memRead t (.segment .ss) (stackOffset t) (sizeWidth size) = .ok (BitVec.ofNat 32 (v.toNat % 2 ^ (8 * sizeBytes size))) := by
  obtain ⟨ls', hls', -, ht⟩ := push_ok h
  rw [accessBytes_sizeWidth] at hls' ht
  have hoff : stackOffset t = stackOffset (stackDown s (sizeBytes size)) := by rw [ht]; rfl
  rw [hoff, locate_congr (s := stackDown s (sizeBytes size)) (by rw [ht]; rfl) (by rw [ht]; rfl)] at hstore
  obtain rfl : ls = ls' := Except.ok.inj (hstore.symm.trans hls')
  have hlen : ls.length = (bytesOf v (sizeBytes size)).length := by rw [bytesOf_length, (locate_ok hload).1]
  rw [memRead_of_locate (by rwa [accessBytes_sizeWidth]), ht, State.store_mem, map_read_writeAll _ _ _ hn hlen,
    littleEndian_bytesOf, Nat.pow_mul]

/-- The pointer's two moves cancel: of a push with the pointer moved back, the store is left. -/
theorem stackUp_push {s t : State} {size : Size} {v : DWord} (h : push s size v = .ok t) :
    ∃ ls vs, stackUp t (sizeBytes size) = s.store ls vs := by
  obtain ⟨ls, -, -, rfl⟩ := push_ok h
  exact ⟨ls, _, by rw [stackUp_store, stackUp_stackDown]⟩

/-! ## DIV and MOD (R185) -/

theorem floorDiv_eq_ediv (a : Int) {b : Int} (hb : 0 < b) : floorDiv a b = a / b := Int.fdiv_eq_ediv_of_nonneg a hb.le

theorem posMod_eq_emod (a : Int) {b : Int} (hb : 0 < b) : posMod a b = a % b := by
  rw [posMod, floorDiv_eq_ediv a hb, Int.emod_def]

theorem floorDiv_eight (a : DWord) : floorDiv a.toInt 8 = (a.sshiftRight 3).toInt := by
  rw [floorDiv_eq_ediv _ (by decide), BitVec.toInt_sshiftRight, Int.shiftRight_eq_div_pow]
  rfl

theorem posMod_eight (a : DWord) : posMod a.toInt 8 = ((a.extractLsb' 0 3).toNat : Int) := by
  rw [posMod_eq_emod _ (by decide), BitVec.toInt_eq_toNat_cond, BitVec.extractLsb'_toNat, Nat.shiftRight_zero]
  split <;> omega

/-! ## The byte and the number of a bit in memory (R184) -/

theorem toNat_bitByteOffset_s32 (ea bitOffset : DWord) :
    ((bitByteOffset .s32 ea bitOffset).toNat : Int) = ((ea.toNat : Int) + floorDiv bitOffset.toInt 8) % 2 ^ 32 := by
  rw [bitByteOffset, BitVec.toNat_add, BitVec.toNat_ofInt]
  omega

theorem toNat_bitByteOffset_s16 (ea bitOffset : DWord) :
    ((bitByteOffset .s16 ea bitOffset).toNat : Int) = ((ea.toNat : Int) + floorDiv bitOffset.toInt 8) % 2 ^ 16 := by
  rw [bitByteOffset, BitVec.toNat_setWidth, BitVec.toNat_add, BitVec.toNat_ofInt, BitVec.extractLsb'_toNat, Nat.shiftRight_zero]
  omega

theorem val_bitNumber (bitOffset : DWord) : ((bitNumber bitOffset).val : Int) = bitOffset.toInt % 8 := by
  rw [bitNumber, posMod_eq_emod _ (by decide), Fin.val_ofNat]
  omega

/-! ## Assigning a bit (R183, R184) -/

/-- One bit replaced, at every width: `setBit`, `setBit16` and `setBit32` are this at theirs. -/
theorem getLsbD_replace_bit {w : Nat} (x : BitVec w) (k : Nat) (v : Bool) {j : Nat} (hj : j < w) :
    (if v then x ||| BitVec.twoPow w k else x &&& ~~~(BitVec.twoPow w k)).getLsbD j = if j = k then v else x.getLsbD j := by
  by_cases hjk : j = k
  · subst hjk
    cases v <;> simp [hj]
  · cases v <;> simp [hj, hjk]

theorem getLsbD_setBit (b : Byte) (k j : Fin 8) (v : Bool) :
    (setBit b k v).getLsbD j = if j.val = k.val then v else b.getLsbD j :=
  getLsbD_replace_bit b k v j.isLt

theorem getLsbD_setBit16 (b : Word) (k j : Fin 16) (v : Bool) :
    (setBit16 b k v).getLsbD j = if j.val = k.val then v else b.getLsbD j :=
  getLsbD_replace_bit b k v j.isLt

theorem getLsbD_setBit32 (b : DWord) (k j : Fin 32) (v : Bool) :
    (setBit32 b k v).getLsbD j = if j.val = k.val then v else b.getLsbD j :=
  getLsbD_replace_bit b k v j.isLt

theorem memRead_byte {s : State} {src : AddressSource} {off l : Nat} (h : locate s src off .byte .load 0 1 = .ok [l]) :
    memRead s src off .byte = .ok ((s.mem.read l).zeroExtend 32) := by
  rw [memRead_of_locate h]
  simp [littleEndian]

theorem readBit_mem_of_memRead {s : State} {seg : SegReg} {o b : DWord} (k : Fin 8)
    (h : memRead s (.segment seg) o.toNat .byte = .ok b) : readBit s (.mem seg o k) = .ok (b.getLsbD k) := by
  simp only [readBit, h]

theorem readBit_mem {s : State} {seg : SegReg} {o : DWord} {l : Nat} (k : Fin 8)
    (h : locate s (.segment seg) o.toNat .byte .load 0 1 = .ok [l]) :
    readBit s (.mem seg o k) = .ok ((s.mem.read l).getLsbD k) := by
  rw [readBit_mem_of_memRead k (memRead_byte h), BitVec.getLsbD_setWidth, decide_eq_true (by omega), Bool.true_and]

theorem extractLsb'_zeroExtend_byte (b : Byte) : (b.zeroExtend 32).extractLsb' 0 8 = b := by
  apply BitVec.eq_of_toNat_eq
  simpa using b.isLt

/-- Where a bit in memory was assigned: its byte has one location for the load and the store, and the byte there is stored with the one
bit replaced. -/
theorem assignBit_mem_ok {s t : State} {seg : SegReg} {o : DWord} {k : Fin 8} {v : Bool}
    (h : assignBit s (.mem seg o k) v = .ok t)
    (hsame : locate s (.segment seg) o.toNat .byte .load 0 1 = locate s (.segment seg) o.toNat .byte .store 0 1) :
    ∃ l, locate s (.segment seg) o.toNat .byte .load 0 1 = .ok [l] ∧ t = s.store [l] [setBit (s.mem.read l) k v] := by
  cases hread : memRead s (.segment seg) o.toNat .byte with
  | error e => simp [assignBit, hread] at h
  | ok b =>
    simp only [assignBit, hread] at h
    obtain ⟨ls, hls, -, rfl⟩ := memWrite_ok h
    obtain ⟨l, rfl⟩ := List.length_eq_one_iff.mp (locate_ok hls).1
    have hload := hsame.trans hls
    obtain rfl : b = (s.mem.read l).zeroExtend 32 := Except.ok.inj (hread.symm.trans (memRead_byte hload))
    refine ⟨l, hload, ?_⟩
    simp only [accessBytes, bytesOf, extractLsb'_zeroExtend_byte]

theorem Memory.writeAll_singleton (m : Memory) (l : Nat) (b : Byte) : m.writeAll [l] [b] = m.write l b := rfl

/-- What the bits of a byte in memory read as once one of them was assigned. -/
theorem readBit_store_setBit {s : State} {seg : SegReg} {o : DWord} {l : Nat} (k j : Fin 8) (v : Bool)
    (h : locate s (.segment seg) o.toNat .byte .load 0 1 = .ok [l]) :
    readBit (s.store [l] [setBit (s.mem.read l) k v]) (.mem seg o j)
      = .ok (if j.val = k.val then v else (s.mem.read l).getLsbD j) := by
  have hback : locate (s.store [l] [setBit (s.mem.read l) k v]) (.segment seg) o.toNat .byte .load 0 1 = .ok [l] :=
    (locate_congr (State.store_launch s ..) (State.store_ip s ..) _ _ _ _ _ _).trans h
  rw [readBit_mem j hback, State.store_mem, Memory.writeAll_singleton, Memory.read_write_same, getLsbD_setBit]

/-! ## I-O-Permission (R186, R187) -/

theorem readTSS_of_memRead {s : State} {off : Nat} {v : DWord} (h : memRead s .system (s.launch.tss + off) .word = .ok v) :
    readTSS s off = .ok v.toNat := by
  simp only [readTSS, h]

theorem portMask_eq (w : AccessWidth) : portMask w = 2 ^ accessBytes w - 1 := by cases w <;> rfl

theorem testBit_shl_portMask (w : AccessWidth) (n i : Nat) :
    (shl (portMask w) n).testBit i = (decide (n ≤ i) && decide (i - n < accessBytes w)) := by
  rw [shl, portMask_eq, Nat.testBit_mul_two_pow, Nat.testBit_two_pow_sub_one]

/-- Masked with the ports an access covers, a word is 0 exactly where the bit of each of them is. -/
theorem and_shl_portMask_eq_zero_iff (word n : Nat) (w : AccessWidth) :
    word &&& shl (portMask w) n = 0 ↔ ∀ j, j < accessBytes w → word.testBit (n + j) = false := by
  constructor
  · intro h j hj
    have hbit : (word &&& shl (portMask w) n).testBit (n + j) = false := by rw [h, Nat.zero_testBit]
    simpa [Nat.testBit_and, testBit_shl_portMask, hj] using hbit
  · intro h
    refine Nat.zero_of_testBit_eq_false fun i => ?_
    rw [Nat.testBit_and, testBit_shl_portMask]
    by_cases covered : n ≤ i ∧ i - n < accessBytes w
    · rw [show i = n + (i - n) by omega, h _ covered.2, Bool.false_and]
    · simpa using fun _ hn => not_lt.mp fun hi => covered ⟨hn, hi⟩

theorem ioPermission_tss286 {s : State} (h : s.launch.tssType = .tss286) (port : Nat) (w : AccessWidth) :
    ioPermission s port w = .ok false := by
  simp only [ioPermission, h]

theorem ioPermission_tss386 {s : State} (h : s.launch.tssType = .tss386) {port ptr word : Nat} (w : AccessWidth)
    (hptr : readTSS s s.launch.ioMapPtrOffset = .ok ptr) (hword : readTSS s (port / 8 + ptr) = .ok word) :
    ioPermission s port w = .ok (word &&& shl (portMask w) (port % 8) == 0) := by
  have hshr : shr port 3 = port / 8 := rfl
  have hand : port &&& 7 = port % 8 := Nat.and_two_pow_sub_one_eq_mod port 3
  simp only [ioPermission, h, hptr, hshr, hword, hand]

end Sys2Proof.Machine

namespace Sys2Proof

open Sys2Proof.Machine

/-- Settles O49: R180 is the table of the function. -/
theorem cmpsFormsFixTheOperandSize : Obligations.CmpsFormsFixTheOperandSize := fun _ => ⟨rfl, rfl, rfl⟩

/-- Settles O50: the pointer moves as a write of SP, which keeps the high half of ESP (D3). -/
theorem pushOn16BitStack : Obligations.PushOn16BitStack := by
  intro s size v ls h16 hls hn hf
  have moved := stackDown_sameButEsp s (sizeBytes size)
  have hsp : (stackDown s (sizeBytes size)).read16 .sp = s.read16 .sp - BitVec.ofNat 16 (sizeBytes size) := by
    rw [stackDown_s16 h16, State.read16_write16_same]
  have hhigh : ((stackDown s (sizeBytes size)).read32 .esp).extractLsb' 16 16 = (s.read32 .esp).extractLsb' 16 16 := by
    rw [stackDown_s16 h16]
    exact s.write16_keeps_high .sp _
  obtain ⟨t, hpush, hregs, frame⟩ := push_places v (by rwa [stackOffset_s16 (by rw [moved.launch, h16]), hsp]) hn hf
  exact ⟨t, hpush, (State.read16_congr hregs .sp).trans hsp, by rw [State.read32_congr hregs, hhigh],
    fun r hr => (State.read32_congr hregs r).trans (moved.others r hr), frame⟩

/-- Settles O51: the pointer moves as a write of ESP. -/
theorem pushOn32BitStack : Obligations.PushOn32BitStack := by
  intro s size v ls h32 hls hn hf
  have moved := stackDown_sameButEsp s (sizeBytes size)
  have hesp : (stackDown s (sizeBytes size)).read32 .esp = s.read32 .esp - BitVec.ofNat 32 (sizeBytes size) := by
    rw [stackDown_s32 h32, State.read32_write32_same]
  obtain ⟨t, hpush, hregs, frame⟩ := push_places v (by rwa [stackOffset_s32 (by rw [moved.launch, h32]), hesp]) hn hf
  exact ⟨t, hpush, (State.read32_congr hregs .esp).trans hesp,
    fun r hr => (State.read32_congr hregs r).trans (moved.others r hr), frame⟩

/-- Settles O52: after push and pop, what is left of the two is the push's store. -/
theorem popAfterPushRestores : Obligations.PopAfterPushRestores := by
  intro s t size v ls hpush hstore hload hn
  obtain ⟨_, _, hup⟩ := stackUp_push hpush
  refine ⟨_, pop_of_memRead (memRead_push hpush hstore hload hn), ?_, (stackUp_sameButEsp t _).mem, ?_, ?_⟩
  · rw [hup, State.store_regs]
  · rw [hup, State.store_cf]
  · rw [hup, State.store_ip]

/-- Settles O53: the load comes first, and the move of the pointer after it reaches ESP only (D19). -/
theorem popReadsThenMovesThePointer : Obligations.PopReadsThenMovesThePointer := by
  refine fun s size => ⟨fun v hv => ?_, fun e he => pop_of_memRead_error (by rwa [stackOffset_eq_ite])⟩
  have moved := stackUp_sameButEsp s (sizeBytes size)
  refine ⟨_, pop_of_memRead (by rwa [stackOffset_eq_ite]), moved.mem, moved.cf, moved.ip, moved.segs, moved.prefixes, moved.launch,
    moved.fetched, moved.stored, moved.others, fun h16 => ?_, fun h32 => ?_⟩
  · rw [stackUp_s16 h16]
    exact ⟨s.read16_write16_same .sp _, s.write16_keeps_high .sp _⟩
  · rw [stackUp_s32 h32, State.read32_write32_same]

/-- Settles O54: the pointer's move leaves memory and the notes alone, and the store was let through (R61, D8). -/
theorem pushKeepsTheInvariant : Obligations.PushKeepsTheInvariant := fun _ _ _ _ hs h => push_keeps_inv hs h

/-- Settles O55: for a positive divisor the two are Euclid's quotient and rest. -/
theorem divRoundsDownAndModIsNotNegative : Obligations.DivRoundsDownAndModIsNotNegative := by
  refine ⟨fun a b hb => ⟨?_, fun q hq => ?_, rfl, ?_, ?_⟩, fun a => ⟨floorDiv_eight a, posMod_eight a⟩, by decide, by decide⟩
  · rw [floorDiv_eq_ediv a hb]
    exact Int.ediv_mul_le a hb.ne'
  · rw [floorDiv_eq_ediv a hb]
    exact (Int.le_ediv_iff_mul_le hb).mpr hq
  · rw [posMod_eq_emod a hb]
    exact Int.emod_nonneg a hb.ne'
  · rw [posMod_eq_emod a hb]
    exact Int.emod_lt_of_pos a hb

/-- Settles O56: the sums of R184 are modular ones of the address size (D9), and the byte read holds the bit (D18). -/
theorem bitInMemoryIsAddressedByDivAndMod : Obligations.BitInMemoryIsAddressedByDivAndMod :=
  ⟨fun ea bitOffset => ⟨toNat_bitByteOffset_s32 ea bitOffset, toNat_bitByteOffset_s16 ea bitOffset, val_bitNumber bitOffset⟩,
    fun _ _ _ _ _ _ h => readBit_mem_of_memRead _ h⟩

/-- Settles O57: what is written back is the register or the byte with the one bit replaced, and it is read as it was written. -/
theorem assignedBitReadsBack : Obligations.AssignedBitReadsBack := by
  refine ⟨fun s r k v => ⟨_, rfl, ?_, fun j hj => ?_⟩, fun s r k v => ⟨_, rfl, ?_, fun j hj => ?_⟩,
    fun s t seg o k v h hsame => ?_⟩
  · rw [readBit, State.read32_write32_same, getLsbD_setBit32, if_pos rfl]
  · rw [readBit, State.read32_write32_same, getLsbD_setBit32, if_neg (Fin.val_ne_of_ne hj), readBit]
  · rw [readBit, State.read16_write16_same, getLsbD_setBit16, if_pos rfl]
  · rw [readBit, State.read16_write16_same, getLsbD_setBit16, if_neg (Fin.val_ne_of_ne hj), readBit]
  · obtain ⟨l, hl, rfl⟩ := assignBit_mem_ok h hsame
    refine ⟨?_, fun j hj => ?_⟩
    · rw [readBit_store_setBit k k v hl, if_pos rfl]
    · rw [readBit_store_setBit k j v hl, if_neg (Fin.val_ne_of_ne hj), readBit_mem j hl]

/-- Settles O58: the mask of R186 is the ports the access covers, so that the test is of their bits (D17). -/
theorem ioPermissionChecksEveryCoveredPort : Obligations.IoPermissionChecksEveryCoveredPort := by
  intro s port w ptr word h386 hptr hword
  refine ⟨_, ioPermission_tss386 h386 w (readTSS_of_memRead hptr) (readTSS_of_memRead hword), ?_⟩
  rw [beq_iff_eq]
  exact and_shl_portMask_eq_zero_iff word.toNat (port % 8) w

/-- Settles O59: the type of the TSS is asked for before anything is read (R186). -/
theorem ioPermissionOf286TssIsFalse : Obligations.IoPermissionOf286TssIsFalse :=
  fun _ port w h => ioPermission_tss286 h port w

end Sys2Proof

/-! PROOFS of the statements about exceptions (60_exceptions.md): the byte at which an access faults (R215), the byte at which
the decoder of R97 stops, what a step can do by the byte it fetches, and Table 17-6. -/

namespace Sys2Proof.Machine

/-! ## The byte at which an access stops (R215) -/

section FirstFault

variable {s : State} {src : AddressSource} {off : Nat} {w : AccessWidth} {x : Stop}

/-- The bytes before the faulting one are located, and no byte after it is asked for. -/
theorem locate_of_fault {kd : AccessKind} {e : ExceptionName} {c : Option Nat} : ∀ {n i k : Nat}, k < n →
    (∀ j, j < k → ∃ l, translate s.launch.translate ⟨src, off, w, i + j, kd⟩ = .location l) →
    translate s.launch.translate ⟨src, off, w, i + k, kd⟩ = .fault e c →
    locate s src off w kd i n = .error (raiseException s e c)
  | n + 1, i, 0, _, _, he => by
    rw [Nat.add_zero] at he
    simp only [locate, he]
  | n + 1, i, k + 1, hk, hloc, he => by
    obtain ⟨l, hl⟩ := hloc 0 k.succ_pos
    rw [Nat.add_zero] at hl
    have ih : locate s src off w kd (i + 1) n = .error (raiseException s e c) :=
      locate_of_fault (k := k) (by omega)
        (fun j hj => by simpa only [Nat.add_assoc, Nat.add_comm 1] using hloc (j + 1) (by omega))
        (by simpa only [Nat.add_assoc, Nat.add_comm 1] using he)
    simp only [locate, hl, ih]

theorem memRead_error_iff : memRead s src off w = .error x ↔ locate s src off w .load 0 (accessBytes w) = .error x := by
  unfold memRead
  split
  · next hls => rw [hls, Except.error.injEq, Except.error.injEq]
  · next hls => simp [hls]

theorem memWrite_of_locate_error (v : DWord) (h : locate s src off w .store 0 (accessBytes w) = .error x) :
    memWrite s src off w v = .error x := by
  simp only [memWrite, h]

/-- A store stops where its bytes cannot be located, or where one of them was fetched in this run (R61). -/
theorem memWrite_error {v : DWord} (h : memWrite s src off w v = .error x) :
    locate s src off w .store 0 (accessBytes w) = .error x
      ∨ (x = .refusal .storeToFetched
        ∧ ∃ ls l, locate s src off w .store 0 (accessBytes w) = .ok ls ∧ l ∈ ls ∧ l ∈ s.fetched) := by
  cases hls : locate s src off w .store 0 (accessBytes w) with
  | error y =>
    obtain rfl : y = x := Except.error.inj ((memWrite_of_locate_error v hls).symm.trans h)
    exact .inl rfl
  | ok ls =>
    by_cases hf : ∀ l ∈ ls, l ∉ s.fetched
    · cases (memWrite_of_locate v hls hf).symm.trans h
    · obtain ⟨l, hl, hlf⟩ : ∃ l ∈ ls, l ∈ s.fetched := by simpa using hf
      exact .inr ⟨Except.error.inj (h.symm.trans (memWrite_storeToFetched v hls hl hlf)), ls, l, rfl, hl, hlf⟩

end FirstFault

/-! ## The byte at which the decoder of R97 stops -/

section StopsWith

variable {ε : Type} {fetch : Nat → Except ε Byte} {lift : Reject → ε} {p : Launch} {x : ε}

/-- From index `a` on, the first byte that the supply does not answer stops it with `x`. -/
def StopsWith (fetch : Nat → Except ε Byte) (a : Nat) (x : ε) : Prop :=
  ∃ k, a ≤ k ∧ (∀ j, a ≤ j → j < k → ∃ b, fetch j = .ok b) ∧ fetch k = .error x

theorem stopsWith_of_error {a : Nat} (h : fetch a = .error x) : StopsWith fetch a x :=
  ⟨a, le_rfl, fun _ haj hja => absurd hja (Nat.not_lt.mpr haj), h⟩

theorem StopsWith.of_succ {a : Nat} {b : Byte} (hb : fetch a = .ok b) (h : StopsWith fetch (a + 1) x) : StopsWith fetch a x := by
  obtain ⟨k, hk, hall, hx⟩ := h
  refine ⟨k, Nat.le_of_succ_le hk, fun j haj hjk => ?_, hx⟩
  rcases haj.eq_or_lt with rfl | haj
  · exact ⟨b, hb⟩
  · exact hall j haj hjk

theorem StopsWith.of_supplies {bs : List Byte} : ∀ {a : Nat}, Supplies fetch a bs → StopsWith fetch (a + bs.length) x →
    StopsWith fetch a x := by
  induction bs with
  | nil => exact fun _ h => h
  | cons b bs ih =>
    intro a hbytes h
    obtain ⟨hb, hbytes⟩ := supplies_cons.mp hbytes
    rw [List.length_cons, Nat.add_comm bs.length, ← Nat.add_assoc] at h
    exact .of_succ hb (ih hbytes h)

theorem fetchMany_error : ∀ {n a : Nat}, fetchMany fetch a n = .error x → StopsWith fetch a x
  | n + 1, a, h => by
    unfold fetchMany at h
    split at h
    · next he => cases h; exact stopsWith_of_error he
    · next hb =>
      split at h
      · next he => cases h; exact .of_succ hb (fetchMany_error he)
      · cases h

theorem decodeOpcode_error {a : Nat} {op : Byte} (h : decodeOpcode lift fetch p a op = .error x) :
    (∃ r, x = lift r) ∨ StopsWith fetch a x := by
  unfold decodeOpcode at h
  split at h
  · exact .inl ⟨_, (Except.error.inj h).symm⟩
  · cases h
  · split at h
    · next he => cases h; exact .inr (stopsWith_of_error he)
    · split at h
      · exact .inl ⟨_, (Except.error.inj h).symm⟩
      · cases h

theorem decodeAddressing_error {hasModRM : Bool} {size : Size} {a : Nat} (h : decodeAddressing fetch hasModRM size a = .error x) :
    StopsWith fetch a x := by
  unfold decodeAddressing at h
  split at h
  · cases h
  · split at h
    · next he => cases h; exact stopsWith_of_error he
    · next hm =>
      refine .of_succ hm ?_
      split at h
      · split at h
        · next he => cases h; exact fetchMany_error he
        · cases h
      · split at h
        · next he => cases h; exact stopsWith_of_error he
        · next hs =>
          refine .of_succ hs ?_
          split at h
          · next he => cases h; exact fetchMany_error he
          · cases h

/-- After the prefixes R97 stops by refusing, or with what the first byte that the supply does not answer stops with: each piece
begins where the bytes of the pieces before it end. -/
theorem decodeTail_error {P : PrefixSet} {op : Byte} (hop : fetch (prefixCount P) = .ok op)
    (h : decodeTail lift fetch p P op = .error x) : (∃ r, x = lift r) ∨ StopsWith fetch (prefixCount P) x := by
  unfold decodeTail at h
  split at h
  · next he => cases h; exact (decodeOpcode_error he).imp_right (.of_succ hop)
  · next opcode sh hopcode =>
    obtain ⟨-, more, rfl, hmore⟩ := decodeOpcode_ok_iff.mp hopcode
    have hbefore : Supplies fetch (prefixCount P) (op :: more) := supplies_cons.mpr ⟨hop, hmore⟩
    split at h
    · next he => cases h; exact .inr (.of_supplies hbefore (decodeAddressing_error he))
    · next adr hadr =>
      obtain ⟨-, hadr⟩ := decodeAddressing_ok_iff.mp hadr
      split at h
      · next he =>
        refine .inr (.of_supplies hbefore (.of_supplies hadr ?_))
        rw [length_addressingBytes]
        cases h
        exact fetchMany_error he
      · dsimp only at h
        split at h
        · exact .inl ⟨_, (Except.error.inj h).symm⟩
        · cases h

end StopsWith

/-! ## What a step can do, by the byte it fetches -/

/-- A step whose run has not ended stops at the byte after the recorded prefixes, records it, or goes on to the rest of R97, which
stops or answers. -/
theorem step_cases {s : State} (hf : s.final = false) :
    (∃ x, fetchByte s (prefixCount s.prefixes) = .error x ∧ step s = x.outcome)
      ∨ ∃ l b, fetchByte s (prefixCount s.prefixes) = .ok (l, b)
        ∧ ((∃ q, prefixOfByte b = some q ∧ step s = recordPrefix q (s.noteFetched l))
          ∨ (prefixOfByte b = none
            ∧ ((∃ x, decodeTail stopOfReject (fetchAt s) s.launch s.prefixes b = .error x ∧ step s = x.outcome)
              ∨ ∃ d, decodeTail stopOfReject (fetchAt s) s.launch s.prefixes b = .ok d
                ∧ step s = if d.opcode = [0xF5] then exec .cmc (s.noteFetched l)
                    else .refused (.noInstructionPage d.opcode)))) := by
  cases hb : fetchByte s (prefixCount s.prefixes) with
  | error x => exact .inl ⟨x, rfl, step_of_fetchInstr_error hf (fetchInstr_of_fetchByte_error hb)⟩
  | ok lb =>
    obtain ⟨l, b⟩ := lb
    refine .inr ⟨l, b, rfl, ?_⟩
    cases hq : prefixOfByte b with
    | some q => exact .inl ⟨q, rfl, step_prefix hf hb hq⟩
    | none =>
      refine .inr ⟨rfl, ?_⟩
      cases hd : decodeTail stopOfReject (fetchAt s) s.launch s.prefixes b with
      | error x => exact .inl ⟨x, rfl, step_of_fetchInstr_error hf (fetchInstr_of_decodeTail_error hb hq hd)⟩
      | ok d => exact .inr ⟨d, rfl, step_opcode hf hb hq hd⟩

theorem step_of_final {s : State} (hf : s.final = true) : step s = .refused .runEnded := if_pos hf

/-! ## A step that faults (R213) -/

/-- A fetch faults where `Translate` does (R213), with the `ip` of the instruction (R212, R216). -/
theorem fetchByte_fault {s : State} {k : Nat} {f : Fault} (h : fetchByte s k = .error (.fault f)) :
    s.ip.toNat + k < 2 ^ 32 ∧ ∃ e c, f = .exception e (interruptNumber e) c s.ip
      ∧ translate s.launch.translate
          { source := .segment .cs, offset := s.ip.toNat + k, width := .byte, byte := 0, kind := .fetch } = .fault e c := by
  unfold fetchByte at h
  split at h
  · cases h
  · next hk =>
    split at h
    · next e c he =>
      cases h
      exact ⟨Nat.not_le.mp hk, e, c, rfl, he⟩
    · split at h <;> cases h

theorem fetchAt_error_iff {s : State} {k : Nat} {x : Stop} : fetchAt s k = .error x ↔ fetchByte s k = .error x := by
  unfold fetchAt
  split
  · next hb => rw [hb, Except.error.injEq, Except.error.injEq]
  · next hb => simp [hb]

theorem fetchAt_ok_iff {s : State} {k : Nat} {b : Byte} : fetchAt s k = .ok b ↔ ∃ l, fetchByte s k = .ok (l, b) := by
  unfold fetchAt
  split
  · next hb => simp [hb]
  · next hb => simp [hb]

theorem Stop.outcome_eq_fault {x : Stop} {f : Fault} (h : x.outcome = .fault f) : x = .fault f := by
  cases x with
  | fault g => cases h; rfl
  | refusal r => cases h

theorem stopOfReject_ne_fault (r : Reject) (f : Fault) : stopOfReject r ≠ .fault f := by cases r <;> simp [stopOfReject]

theorem recordPrefix_ne_fault (q : PrefixByte) (s : State) (f : Fault) : recordPrefix q s ≠ .fault f := by
  unfold recordPrefix
  split <;> simp

theorem execCmc_ne_fault (s : State) (f : Fault) : execCmc s ≠ .fault f := by
  unfold execCmc
  split <;> simp

/-- No row faults: a step that does is stopped by the fetch of a byte of its instruction. -/
theorem step_fault {s : State} {f : Fault} (h : step s = .fault f) :
    StopsWith (fetchAt s) (prefixCount s.prefixes) (.fault f) := by
  cases hf : s.final with
  | true => cases (step_of_final hf).symm.trans h
  | false =>
    rcases step_cases hf with ⟨x, hb, hstep⟩ | ⟨l, b, hb, ⟨q, -, hstep⟩ | ⟨-, ⟨x, hd, hstep⟩ | ⟨d, -, hstep⟩⟩⟩
    · obtain rfl := Stop.outcome_eq_fault (hstep.symm.trans h)
      exact stopsWith_of_error (fetchAt_error_iff.mpr hb)
    · exact absurd (hstep.symm.trans h) (recordPrefix_ne_fault q _ f)
    · obtain rfl := Stop.outcome_eq_fault (hstep.symm.trans h)
      refine (decodeTail_error (fetchAt_ok_iff.mpr ⟨l, hb⟩) hd).resolve_left ?_
      rintro ⟨r, hr⟩
      exact stopOfReject_ne_fault r f hr.symm
    · rw [h] at hstep
      split at hstep
      · exact absurd hstep.symm (execCmc_ne_fault _ f)
      · cases hstep

/-! ## Parts of the state that no step reads -/

/-- `g` changes nothing that a step reads, and it may as well be made after each update that a step makes. -/
structure Unread (g : State → State) : Prop where
  final : ∀ s, (g s).final = s.final
  prefixes : ∀ s, (g s).prefixes = s.prefixes
  cf : ∀ s, (g s).cf = s.cf
  fetchByte : ∀ s k, fetchByte (g s) k = fetchByte s k
  decodeTail : ∀ s fetch P op, decodeTail stopOfReject fetch (g s).launch P op = decodeTail stopOfReject fetch s.launch P op
  noteFetched : ∀ s l, (g s).noteFetched l = g (s.noteFetched l)
  setPrefixes : ∀ s P, (g s).setPrefixes P = g (s.setPrefixes P)
  setCF : ∀ s b, (g s).setCF b = g (s.setCF b)
  advance : ∀ s n, (g s).advance n = g (s.advance n)

section Unread

variable {g : State → State}

theorem mapNext_outcome (x : Stop) : mapNext g x.outcome = x.outcome := by cases x <;> rfl

theorem fetchAt_of_unread (h : Unread g) (s : State) : fetchAt (g s) = fetchAt s := by
  funext k
  simp only [fetchAt, h.fetchByte]

theorem recordPrefix_of_unread (h : Unread g) (q : PrefixByte) (s : State) :
    recordPrefix q (g s) = mapNext g (recordPrefix q s) := by
  unfold recordPrefix
  rw [h.prefixes, h.setPrefixes]
  split <;> rfl

theorem execCmc_of_unread (h : Unread g) (s : State) : execCmc (g s) = mapNext g (execCmc s) := by
  unfold execCmc complementCF
  rw [h.prefixes, h.cf, h.setCF, h.advance]
  split <;> rfl

/-- A step commutes with a change of what it does not read: it fetches and decodes the same bytes. -/
theorem step_of_unread (h : Unread g) (s : State) : step (g s) = mapNext g (step s) := by
  cases hf : s.final with
  | true => rw [step_of_final hf, step_of_final ((h.final s).trans hf), mapNext]
  | false =>
    have hf' : (g s).final = false := (h.final s).trans hf
    have hfetch : fetchByte (g s) (prefixCount (g s).prefixes) = fetchByte s (prefixCount s.prefixes) := by
      rw [h.prefixes, h.fetchByte]
    have htail : ∀ b, decodeTail stopOfReject (fetchAt (g s)) (g s).launch (g s).prefixes b
        = decodeTail stopOfReject (fetchAt s) s.launch s.prefixes b := fun b => by
      rw [fetchAt_of_unread h, h.prefixes, h.decodeTail]
    rcases step_cases hf with ⟨x, hb, hstep⟩ | ⟨l, b, hb, ⟨q, hq, hstep⟩ | ⟨hno, ⟨x, hd, hstep⟩ | ⟨d, hd, hstep⟩⟩⟩
    · rw [hstep, mapNext_outcome, step_of_fetchInstr_error hf' (fetchInstr_of_fetchByte_error (hfetch.trans hb))]
    · rw [hstep, step_prefix hf' (hfetch.trans hb) hq, h.noteFetched, recordPrefix_of_unread h]
    · rw [hstep, mapNext_outcome, step_of_fetchInstr_error hf'
        (fetchInstr_of_decodeTail_error (hfetch.trans hb) hno ((htail b).trans hd))]
    · rw [hstep, step_opcode hf' (hfetch.trans hb) hno ((htail b).trans hd), h.noteFetched]
      split
      · exact execCmc_of_unread h _
      · rfl

end Unread

/-- The mode stands among the launch parameters, of which a step reads others only (R221, D23). -/
theorem unread_withMode (m : Mode) : Unread (fun s => s.withMode m) where
  final _ := rfl
  prefixes _ := rfl
  cf _ := rfl
  fetchByte _ _ := rfl
  decodeTail _ _ _ _ := rfl
  noteFetched _ _ := rfl
  setPrefixes _ _ := rfl
  setCF _ _ := rfl
  advance _ _ := rfl

end Sys2Proof.Machine

namespace Sys2Proof

open Sys2Proof.Machine

/-- Settles O31: the step stops at the first byte whose fetch does not answer, and a fetch faults where `Translate` does. -/
theorem exceptionsComeFromTranslate : Obligations.ExceptionsComeFromTranslate := by
  intro s f h
  obtain ⟨k, hk, hbefore, hstop⟩ := step_fault h
  have hfetch := fetchAt_error_iff.mp hstop
  obtain ⟨hip, e, c, hf, htranslate⟩ := fetchByte_fault hfetch
  refine ⟨k, e, c, hf, hk, hip, fun j hj hjk => ?_, hfetch, htranslate⟩
  obtain ⟨b, hb⟩ := hbefore j hj hjk
  obtain ⟨l, hl⟩ := fetchAt_ok_iff.mp hb
  exact ⟨(l, b), hl⟩

/-- Settles O32: the mode is one of the parts of the state that no step reads. -/
theorem modeIsNotRead : Obligations.ModeIsNotRead := fun s m => step_of_unread (unread_withMode m) s

/-- Settles O41: `locate` stops exactly at the first byte that faults, and past it only a store can stop, by R61. -/
theorem firstFaultingByteRaises : Obligations.FirstFaultingByteRaises := by
  refine ⟨fun s src off w v k e c hk => ⟨fun hloc he => ?_, fun hloc he => ?_⟩, fun s src off w x h => ?_,
    fun s src off w v x h => ?_⟩
  · exact memRead_error_iff.mpr (locate_of_fault hk (by simpa using hloc) (by simpa using he))
  · exact memWrite_of_locate_error v (locate_of_fault hk (by simpa using hloc) (by simpa using he))
  · simpa [raiseException] using locate_error (memRead_error_iff.mp h)
  · refine (memWrite_error h).imp_left fun hloc => ?_
    simpa [raiseException] using locate_error hloc

/-- Settles O60: the rows one by one. -/
theorem exceptionTable : Obligations.ExceptionTable := rfl

end Sys2Proof

/-! PROOFS of the statements about the end of a run (R239) and about the first row run (R231). -/

namespace Sys2Proof.Machine

/-! ## The end of a run (R239) -/

theorem State.final_iff {s : State} : s.final = true ↔ s.launch.endIp = some s.ip := by simp [State.final]

/-- A fetch never says that the run has ended: it is refused across the top and for a stored byte only (R26, R61). -/
theorem fetchByte_ne_runEnded (s : State) (k : Nat) : fetchByte s k ≠ .error (.refusal .runEnded) := by
  unfold fetchByte
  split
  · simp
  · split
    · simp [raiseException]
    · split <;> simp

theorem stopOfReject_ne_runEnded (r : Reject) : stopOfReject r ≠ .refusal .runEnded := by cases r <;> simp [stopOfReject]

theorem recordPrefix_ne_runEnded (q : PrefixByte) (s : State) : recordPrefix q s ≠ .refused .runEnded := by
  unfold recordPrefix
  split <;> simp

theorem execCmc_ne_runEnded (s : State) : execCmc s ≠ .refused .runEnded := by
  unfold execCmc
  split <;> simp

theorem Stop.outcome_eq_refused {x : Stop} {r : Refusal} (h : x.outcome = .refused r) : x = .refusal r := by
  cases x with
  | fault f => cases h
  | refusal r' => cases h; rfl

/-- Of all that can stop a step, R239's test alone says that the run has ended. -/
theorem step_ne_runEnded {s : State} (hf : s.final = false) : step s ≠ .refused .runEnded := by
  intro h
  rcases step_cases hf with ⟨x, hb, hstep⟩ | ⟨l, b, hb, ⟨q, -, hstep⟩ | ⟨-, ⟨x, hd, hstep⟩ | ⟨d, -, hstep⟩⟩⟩
  · obtain rfl := Stop.outcome_eq_refused (hstep.symm.trans h)
    exact fetchByte_ne_runEnded s _ hb
  · exact recordPrefix_ne_runEnded q _ (hstep.symm.trans h)
  · obtain rfl := Stop.outcome_eq_refused (hstep.symm.trans h)
    rcases decodeTail_error (fetchAt_ok_iff.mpr ⟨l, hb⟩) hd with ⟨r, hr⟩ | ⟨k, -, -, hk⟩
    · exact stopOfReject_ne_runEnded r hr.symm
    · exact fetchByte_ne_runEnded s k (fetchAt_error_iff.mp hk)
  · rw [h] at hstep
    split at hstep
    · exact execCmc_ne_runEnded _ hstep.symm
    · cases hstep

/-! ## Bytes placed where they are fetched (log 26) -/

/-- The state with one byte placed at a location, which is no longer one stored to in this run. -/
def State.placeByte (s : State) (l : Nat) (b : Byte) : State :=
  { s with mem := s.mem.write l b, stored := s.stored.filter (fun x => x != l) }

@[simp] theorem State.placeByte_ip (s : State) (l : Nat) (b : Byte) : (s.placeByte l b).ip = s.ip := rfl
@[simp] theorem State.placeByte_mem (s : State) (l : Nat) (b : Byte) : (s.placeByte l b).mem = s.mem.write l b := rfl

theorem State.mem_placeByte_stored {s : State} {a l : Nat} {b : Byte} :
    a ∈ (s.placeByte l b).stored ↔ a ∈ s.stored ∧ a ≠ l := by
  simp [State.placeByte]

/-- What `Translate` answers for the fetch of the byte at index `k` of the instruction at `ip` (R56). -/
def fetchAnswer (s : State) (k : Nat) : TranslateAnswer :=
  translate s.launch.translate
    { source := .segment .cs, offset := s.ip.toNat + k, width := .byte, byte := 0, kind := .fetch }

theorem fetchAnswer_flat {s : State} (hflat : s.launch.translate = []) (k : Nat) :
    fetchAnswer s k = .location (s.ip.toNat + k) := by
  rw [fetchAnswer, hflat, translate_nil, Nat.add_zero]

theorem fetchByte_of_location {s : State} {k l : Nat} (hk : s.ip.toNat + k < 2 ^ 32) (hl : fetchAnswer s k = .location l)
    (hst : l ∉ s.stored) : fetchByte s k = .ok (l, s.mem.read l) := by
  rw [fetchAnswer] at hl
  simp only [fetchByte, if_neg (Nat.not_le.mpr hk), hl, List.contains_iff_mem, if_neg hst]

theorem placeFetchBytes_of_location {s : State} {k l : Nat} (hl : fetchAnswer s k = .location l) (b : Byte) (bs : List Byte) :
    placeFetchBytes s k (b :: bs) = placeFetchBytes (s.placeByte l b) (k + 1) bs := by
  rw [fetchAnswer] at hl
  simp only [placeFetchBytes, hl, State.placeByte]

theorem placeFetchBytes_of_fault {s : State} {k : Nat} {e : ExceptionName} {c : Option Nat} (hl : fetchAnswer s k = .fault e c)
    (b : Byte) (bs : List Byte) : placeFetchBytes s k (b :: bs) = placeFetchBytes s (k + 1) bs := by
  rw [fetchAnswer] at hl
  simp only [placeFetchBytes, hl]

/-- What each placed byte keeps, all of them keep. -/
theorem placeFetchBytes_keeps {P : State → Prop} {bs : List Byte} : ∀ {s : State} {k : Nat},
    (∀ t j l b, k ≤ j → fetchAnswer t j = .location l → P t → P (t.placeByte l b)) → P s → P (placeFetchBytes s k bs) := by
  induction bs with
  | nil => exact fun _ hs => hs
  | cons b bs ih =>
    intro s k hkeep hs
    have hkeep' : ∀ t j l b, k + 1 ≤ j → fetchAnswer t j = .location l → P t → P (t.placeByte l b) :=
      fun t j l b hj => hkeep t j l b (Nat.le_of_succ_le hj)
    cases hl : fetchAnswer s k with
    | fault e c =>
      rw [placeFetchBytes_of_fault hl]
      exact ih hkeep' hs
    | location l =>
      rw [placeFetchBytes_of_location hl]
      exact ih hkeep' (hkeep s k l b le_rfl hl hs)

@[simp] theorem placeFetchBytes_ip (s : State) (k : Nat) (bs : List Byte) : (placeFetchBytes s k bs).ip = s.ip :=
  placeFetchBytes_keeps (P := fun t => t.ip = s.ip) (fun _ _ _ _ _ _ h => h) rfl

@[simp] theorem placeFetchBytes_prefixes (s : State) (k : Nat) (bs : List Byte) :
    (placeFetchBytes s k bs).prefixes = s.prefixes :=
  placeFetchBytes_keeps (P := fun t => t.prefixes = s.prefixes) (fun _ _ _ _ _ _ h => h) rfl

@[simp] theorem placeFetchBytes_launch (s : State) (k : Nat) (bs : List Byte) : (placeFetchBytes s k bs).launch = s.launch :=
  placeFetchBytes_keeps (P := fun t => t.launch = s.launch) (fun _ _ _ _ _ _ h => h) rfl

/-- `t` fetches from the locations that `s` fetches from, and bytes placed since `s` have left location `a` alone. -/
structure LeftAlone (s : State) (a : Nat) (t : State) : Prop where
  answer : fetchAnswer t = fetchAnswer s
  read : t.mem.read a = s.mem.read a
  stored : a ∈ t.stored → a ∈ s.stored

theorem LeftAlone.placeByte {s t : State} {a l : Nat} (h : LeftAlone s a t) (hne : a ≠ l) (b : Byte) :
    LeftAlone s a (t.placeByte l b) where
  answer := h.answer
  read := by rw [State.placeByte_mem, Memory.read_write_other b hne, h.read]
  stored hmem := h.stored (State.mem_placeByte_stored.mp hmem).1

theorem placeFetchBytes_leftAlone {s : State} {k a : Nat} (bs : List Byte)
    (ha : ∀ j, k ≤ j → fetchAnswer s j ≠ .location a) :
    LeftAlone s a (placeFetchBytes s k bs) := by
  refine placeFetchBytes_keeps (fun t j l b hj hl ht => ht.placeByte ?_ b) ⟨rfl, rfl, id⟩
  rintro rfl
  exact ha j hj (ht.answer ▸ hl)

/-- The byte placed first is fetched from its location, where no later byte is placed over it. -/
theorem fetchByte_placeFetchBytes {s : State} {k l : Nat} (b : Byte) (bs : List Byte) (hk : s.ip.toNat + k < 2 ^ 32)
    (hl : fetchAnswer s k = .location l) (hlater : ∀ j, k < j → fetchAnswer s j ≠ .location l) :
    fetchByte (placeFetchBytes s k (b :: bs)) k = .ok (l, b) := by
  have hplaced : LeftAlone (s.placeByte l b) l (placeFetchBytes (s.placeByte l b) (k + 1) bs) := placeFetchBytes_leftAlone bs hlater
  have hunstored : l ∉ (placeFetchBytes (s.placeByte l b) (k + 1) bs).stored :=
    fun h => (State.mem_placeByte_stored.mp (hplaced.stored h)).2 rfl
  rw [placeFetchBytes_of_location hl, fetchByte_of_location (by simpa using hk) (hplaced.answer ▸ hl) hunstored, hplaced.read,
    State.placeByte_mem, Memory.read_write_same]

/-! ## The word the host places -/

theorem tableWordBytes_byte (b : Byte) : tableWordBytes 8 b.toNat = b :: List.replicate 15 0 := by
  have hb : b.toNat % 2 ^ 8 = b.toNat := Nat.mod_eq_of_lt b.isLt
  simp only [tableWordBytes, hb, numberBytes, Nat.reduceAdd, Nat.reduceDiv, BitVec.ofNat_toNat, BitVec.setWidth_eq,
    List.singleton_append]

section WithFetchWord

variable (s : State) (n w : Nat)

@[simp] theorem State.withFetchWord_final : (s.withFetchWord n w).final = false := by
  unfold State.withFetchWord
  dsimp only
  split
  · simp [State.final]
  · next hf => simpa using hf

@[simp] theorem State.withFetchWord_prefixes : (s.withFetchWord n w).prefixes = s.prefixes := by
  unfold State.withFetchWord
  dsimp only
  split <;> exact placeFetchBytes_prefixes ..

@[simp] theorem State.withFetchWord_maxInstrLength : (s.withFetchWord n w).launch.maxInstrLength = s.launch.maxInstrLength := by
  unfold State.withFetchWord
  dsimp only
  split <;> simp

/-- No fetch reads `end_ip`, which may have been taken away. -/
theorem fetchByte_withFetchWord (k : Nat) : fetchByte (s.withFetchWord n w) k
    = fetchByte (placeFetchBytes s (prefixCount s.prefixes) (tableWordBytes n w)) k := by
  unfold State.withFetchWord
  dsimp only
  split <;> rfl

end WithFetchWord

/-- A row's byte is read as the row, where the row is the decoder's own name of it (log 2). -/
theorem decodeByte_of_encode {i : Instr} {b : Byte} (hi : i.wellFormed = true) (h : encode i = [b]) : decodeByte b = .ok i := by
  have hdecode := decode_encode i []
  rw [h, wellFormed_iff.mp hi, List.append_nil] at hdecode
  simp only [decode] at hdecode
  split at hdecode
  · next hb => cases hdecode; exact hb
  · cases hdecode

theorem decodeTableWord_of_encode {i : Instr} {b : Byte} (hi : i.wellFormed = true) (h : encode i = [b]) :
    decodeTableWord 8 b.toNat = some i := by
  simp only [decodeTableWord, tableWordBytes_byte, decode, decodeByte_of_encode hi h]

/-- Under the flat `Translate` (log 6) the byte placed is the next one fetched. -/
theorem fetchByte_withFetchWord_byte {s : State} (hflat : s.launch.translate = [])
    (hip : s.ip.toNat + prefixCount s.prefixes < 2 ^ 32) (b : Byte) :
    fetchByte (s.withFetchWord 8 b.toNat) (prefixCount s.prefixes) = .ok (s.ip.toNat + prefixCount s.prefixes, b) := by
  rw [fetchByte_withFetchWord, tableWordBytes_byte]
  refine fetchByte_placeFetchBytes b _ hip (fetchAnswer_flat hflat _) fun j hj heq => ?_
  rw [fetchAnswer_flat hflat, TranslateAnswer.location.injEq] at heq
  omega

end Sys2Proof.Machine

namespace Sys2Proof

open Sys2Proof.Machine

/-- Settles O34: a step first makes R239's test, and nothing after it answers that the run has ended (D22). -/
theorem runEndsExactlyAtEndIp : Obligations.RunEndsExactlyAtEndIp := by
  refine fun s => ⟨State.final_iff, fun h => ?_, step_of_final⟩
  cases hf : s.final with
  | true => rfl
  | false => exact absurd h (step_ne_runEnded hf)

/-- Settles O24: the byte placed is the one fetched at location 0, and a step runs the row its byte decodes to. -/
theorem placedRowRunsFirst : Obligations.PlacedRowRunsFirst := by
  intro i b hi hencode
  refine ⟨decodeTableWord_of_encode hi hencode, ?_⟩
  have hfetch : fetchByte (State.reset.withFetchWord 8 b.toNat) 0 = .ok (0, b) :=
    fetchByte_withFetchWord_byte (s := State.reset) rfl (by decide) b
  have hlimit : ¬ (i = .cmc ∧ (State.reset.withFetchWord 8 b.toNat).launch.maxInstrLength
      < prefixCount (State.reset.withFetchWord 8 b.toNat).prefixes + 1) := by
    rw [State.withFetchWord_maxInstrLength, State.withFetchWord_prefixes]
    exact fun h => absurd h.2 (by decide)
  obtain ⟨-, hstep⟩ := stepRunsTheDecodedInstruction (State.reset.withFetchWord 8 b.toNat) 0 b i
    (State.withFetchWord_final ..) (by rwa [State.withFetchWord_prefixes]) (decodeByte_of_encode hi hencode)
  rw [hstep, if_neg hlimit]

end Sys2Proof

/-! PROOF of the statement about the general and segment registers (log 7). -/

namespace Sys2Proof.Machine

/-- The selectors are read by nothing (log 7), no row so far reads a general register, and `Translate` as a table is a launch
parameter (log 6). -/
theorem unread_withRegisters (g : Regs) (sg : SegRegs) : Unread (fun s => s.withRegisters g sg) where
  final _ := rfl
  prefixes _ := rfl
  cf _ := rfl
  fetchByte _ _ := rfl
  decodeTail _ _ _ _ := rfl
  noteFetched _ _ := rfl
  setPrefixes _ _ := rfl
  setCF _ _ := rfl
  advance _ _ := rfl

end Sys2Proof.Machine

namespace Sys2Proof

open Sys2Proof.Machine

/-- Settles O33: the general and segment registers are parts of the state that no step reads. -/
theorem registersDoNotInfluenceSteps : Obligations.RegistersDoNotInfluenceSteps :=
  fun s g sg => step_of_unread (unread_withRegisters g sg) s

end Sys2Proof
